-- ==== Sys2Proof/Word.lean ====
section
/-! DEFINITION. The value types of the block: chars, bytes, indices and bit sequences (00_scope.md R6 to R9). -/

namespace Sys2Proof

/-- `CHAR`: 21 bits (R6). Which of its values are Unicode scalar values is `isChar` (WellFormed.lean). -/
abbrev CHAR := BitVec 21

/-- A byte: an unsigned 8-bit integer (R7). -/
abbrev Byte := BitVec 8

/-- An index: an unsigned 3-bit integer, the address of a ROM entry and the value of a bit group (R7, R25). -/
abbrev Index := BitVec 3

/-- A bit sequence, element 0 leftmost (R9, R29): `true` is the bit 1. -/
abbrev Bits := List Bool

end Sys2Proof
end

