-- ==== Sys2Proof/Config.lean ====
section
/-! DEFINITION. The construction-time configuration (10_state.md R19, 00_scope.md R6) and the one free value of the model. -/

namespace Sys2Proof

/-- `STRIP_MODE` (R6): how many padding bits DECODE removes (42_decoder.md R67). -/
inductive StripMode where
  /-- Remove `2*P` bits, the source's algorithm and the default. -/
  | reference
  /-- Remove `P` bits, the correction the source names. -/
  | corrected
deriving DecidableEq, Repr

/-- The three configuration values, fixed when the block is constructed (R19). A block takes them as an argument: they
are fields of the state, so a statement about every state holds for every configuration. -/
structure Config where
  /-- `ALPHABET`: OPEN in the spec (D6). Any sequence can be written here; `alphabetOk` says which ones make a block. -/
  alphabet  : List CHAR
  /-- `STRIP_MODE` (D5). -/
  stripMode : StripMode
  /-- `MAX_IN_LEN`: `none` is unbounded (D13). -/
  maxInLen  : Option Nat
deriving DecidableEq, Repr

/-- `TEST_ALPHABET` of 92_eei_decisions.md D6, `S<i> = U+0030 + i`: the one alphabet the spec writes out, "not a claim
about the reference alphabet". -/
def testAlphabet : List CHAR := [0x30, 0x31, 0x32, 0x33, 0x34, 0x35, 0x36, 0x37]

/-- The configuration of `State.reset`: the spec's defaults for `STRIP_MODE` and `MAX_IN_LEN` (R6), and `TEST_ALPHABET`
where the spec gives no characters.
DESIGN CHOICE (the alphabet, log 1; unsafe). DEDUCED (the two defaults, log 2; safe). -/
def Config.default : Config := { alphabet := testAlphabet, stripMode := .reference, maxInLen := none }

/-- Which of several possible next events comes first: 60_exceptions.md R88 leaves the order of completion open (O9), so
it is a free value. The step applies it to `State.choices` and takes it modulo the number of possible events.
DESIGN CHOICE (log 6; safe). -/
opaque Config.freeChoice : Nat → Nat

end Sys2Proof
end

