-- ==== Sys2Proof/Syntax.lean ====
section
/-! DEFINITION. The commands (one constructor per row of opcode_table.json) and the request that carries one
(10_state.md R20, 30_encoding.md R41). -/

namespace Sys2Proof

/-- A command with its operand `REQ.IN`, element 0 the first character (20_memory.md R32). -/
inductive Instr where
  /-- ENCODE: the operand is the text (41_encoder.md R58). -/
  | encode (input : List CHAR)
  /-- DECODE: the operand is the encoded string (42_decoder.md R70). -/
  | decode (input : List CHAR)
deriving DecidableEq, Repr

/-- The operand sequence of a command. -/
def Instr.input : Instr → List CHAR
  | .encode t => t
  | .decode t => t

/-- A request as it stands on the interface (R20): the bit `REQ.OP` and the sequence `REQ.IN` of 21-bit values. -/
structure Request where
  op    : BitVec 1
  input : List CHAR
deriving DecidableEq, Repr

end Sys2Proof
end

