-- ==== Sys2Proof/WellFormed.lean ====
section
/-! DEFINITION. The checks: which 21-bit values are chars (R6), which commands are well formed, which alphabets make a
block (R14, R91). -/

namespace Sys2Proof

/-- A 21-bit value is a `CHAR`, a Unicode scalar value: 0x0000 to 0x10FFFF without 0xD800 to 0xDFFF (R6). -/
def isChar (c : CHAR) : Bool :=
  decide (c.toNat < 0xD800) || (decide (0xDFFF < c.toNat) && decide (c.toNat ≤ 0x10FFFF))

/-- No element occurs twice. -/
def distinct : List CHAR → Bool
  | [] => true
  | c :: cs => !cs.contains c && distinct cs

/-- A command is well formed: every element of its operand is a `CHAR` (R20). -/
def Instr.wellFormed : Instr → Bool
  | .encode t => t.all isChar
  | .decode t => t.all isChar

/-- The construction-time requirement on `ALPHABET` (70_reset_and_hazards.md R91, 10_state.md R14): exactly 8 entries,
each a `CHAR`, pairwise distinct. -/
def alphabetOk (a : List CHAR) : Bool :=
  decide (a.length = 8) && a.all isChar && distinct a

end Sys2Proof
end

