-- ==== Sys2Proof/Decode.lean ====
section
/-! DEFINITION. The command decoder (30_encoding.md R41, R42), total on every request, and the command encoder. -/

namespace Sys2Proof

/-- Why a request is not a command. Both values of `OP` are commands (R42), so only the operand can be wrong. -/
inductive DecodeError where
  /-- The operand holds the 21-bit value `c`, which is no Unicode scalar value (R6); the leftmost one is named. -/
  | notAChar (c : CHAR)
deriving DecidableEq, Repr

/-- The leftmost element that is no `CHAR`. -/
def firstNonChar (cs : List CHAR) : Option CHAR := cs.find? (fun c => !isChar c)

/-- The command of a request: `OP = 0` is ENCODE, `OP = 1` is DECODE (R41), the operand is `IN`. A request with a value
that is no `CHAR` is rejected by name: the interface cannot carry one (N5; DESIGN CHOICE, log 3, safe). -/
def decode (q : Request) : Except DecodeError Instr :=
  match firstNonChar q.input with
  | some c => .error (.notAChar c)
  | none => if q.op = 0#1 then .ok (.encode q.input) else .ok (.decode q.input)

/-- The encoded form of a command, the pair `(OP, IN)` (R41, R49). -/
def encode : Instr → Request
  | .encode t => ⟨0#1, t⟩
  | .decode t => ⟨1#1, t⟩

/-- The request whose command word is the number `w` and whose operand is empty: `OP` is bit 0 of the word (R41). The
command is 1 bit long, so the higher bits of a word rounded up to whole bytes are no part of it (DESIGN CHOICE, log 4,
safe). -/
def tableRequest (w : Nat) : Request := ⟨BitVec.ofNat 1 w, []⟩

/-- The decoder on a word numbered as opcode_table.json numbers it, the operand being the empty sequence. A word of no
bits holds no `OP`. -/
def decodeTableWord (nbits w : Nat) : Option Instr :=
  if nbits = 0 then none
  else
    match decode (tableRequest w) with
    | .ok i => some i
    | .error _ => none

end Sys2Proof
end

