-- ==== Sys2Proof/Machine/State.lean ====
section
/-! DEFINITION. The state of the block (10_state.md), the reasons to stop, and the state after reset (R24). -/

namespace Sys2Proof.Machine

/-- The closed error taxonomy of DECODE (60_exceptions.md R78): what `raise` raises. -/
inductive CodecError where
  /-- `InvalidSymbol(c)`: `c` is not in the ROM (R80). -/
  | invalidSymbol (c : CHAR)
  /-- `InvalidUtf8`: the reconstructed bytes are not well-formed UTF-8 (R81). -/
  | invalidUtf8
deriving DecidableEq, Repr

/-- A response (10_state.md R21). `errsym` is absent unless the status is INVALID_SYMBOL. -/
structure Response where
  status : BitVec 2
  errsym : Option CHAR
  out    : List CHAR
deriving DecidableEq, Repr

/-- The transaction state of one requester (R22). -/
inductive Txn where
  /-- No command of the requester is in flight. -/
  | idle
  /-- The request was accepted and its response is not yet delivered. -/
  | busy (q : Request)
deriving DecidableEq, Repr

/-- What the block and the interface hold for one requester. -/
structure Port where
  /-- IDLE or BUSY (R22). -/
  txn      : Txn
  /-- The response fields `RSP.*` as they can be read now: `none` after reset (R24) and while a command of this
  requester is in flight (DEDUCED, log 8). -/
  rsp      : Option Response
  /-- Every response delivered to this requester, oldest first. A reset does not undo a delivered response
  (95_test_vectors.md P7). -/
  received : List Response
deriving DecidableEq, Repr

/-- A requester that has done nothing: IDLE, no response (R24). It is how a requester that `State.ports` does not list
reads. -/
def Port.fresh : Port := { txn := .idle, rsp := none, received := [] }

/-- What the outside world presents to the block. -/
inductive Input where
  /-- The requester numbered `r` presents the request `q` (R20). -/
  | request (r : Nat) (q : Request)
  /-- The block is reset (70_reset_and_hazards.md R90). -/
  | reset
deriving DecidableEq, Repr

/-- What one step of the machine can do. -/
inductive Action where
  /-- Take the next input, a request of the IDLE requester `r`, which becomes BUSY (R22). -/
  | accept (r : Nat) (q : Request)
  /-- Take the next input, a reset (R90). -/
  | reset
  /-- Complete the command in flight of requester `r`. -/
  | complete (r : Nat)
deriving DecidableEq, Repr

/-- The whole state of the machine. -/
structure State where
  /-- The Alphabet ROM: 8 entries of one char, addressed by a 3-bit index (R13). -/
  rom     : Vector CHAR 8
  /-- `ALPHABET`, `STRIP_MODE` and `MAX_IN_LEN` (R19). -/
  config  : Config
  /-- The requesters by number, rising, those that would read as `Port.fresh` left out. -/
  ports   : List (Nat × Port)
  /-- The requests and resets of the outside world that the block has not taken yet, in the order in which it takes them
  (log 6). -/
  inputs  : List Input
  /-- The model's own: the requester whose command a meaning executes (DESIGN CHOICE, log 5). -/
  serving : Nat
  /-- The model's own: how often the free completion order was consulted (DESIGN CHOICE, log 6). -/
  choices : Nat
deriving DecidableEq, Repr

/-- Reasons to stop with a fault: none. The two errors of the block are responses after which it goes on (R78, R84), and
the spec gives it no other way to fail. -/
inductive Fault where
deriving DecidableEq, Repr

/-- Reasons the model gives an input no meaning. -/
inductive Refusal where
  /-- An instruction without a meaning yet: raised by an arm of `exec` only, and no arm raises it. Safe. -/
  | notModelled (mnemonic : String)
  /-- `len(REQ.IN) > MAX_IN_LEN` (60_exceptions.md R79): raised by both meanings, naming the requester whose transaction
  is refused. Safe: "no claim about such a command can be proved". -/
  | overLong (requester : Nat)
  /-- `ALPHABET` is not 8 distinct chars, or the ROM does not hold it (70_reset_and_hazards.md R91, 10_state.md R13, R14):
  raised by both meanings, and by every step of such a block. Safe: the spec asks a model to refuse every command of such
  a block and to pick no behaviour for it. -/
  | badAlphabet
  /-- The operand holds a 21-bit value that is no `CHAR` (R6, N5), and no other refusal comes first: raised by both meanings
  and by the step where the decoder rejects a request. Safe: the interface cannot carry one. -/
  | notAChar (c : CHAR)
deriving DecidableEq, Repr

/-- The ROM contents `ROM[i] = ALPHABET[i]` (R13). For a sequence shorter than 8, which `alphabetOk` rejects, the missing
entries are never read. -/
def romOf (a : List CHAR) : Vector CHAR 8 :=
  #v[a.getD 0 0, a.getD 1 0, a.getD 2 0, a.getD 3 0, a.getD 4 0, a.getD 5 0, a.getD 6 0, a.getD 7 0]

/-- A block constructed with the configuration `c`, right after reset (R24, R90): the ROM holds the alphabet, every
requester is IDLE, no response exists, and nothing is presented yet. -/
def State.construct (c : Config) : State :=
  { rom := romOf c.alphabet, config := c, ports := [], inputs := [], serving := 0, choices := 0 }

/-- The machine right after reset (R24), with the configuration `Config.default` (logs 1 and 2). -/
def State.reset : State := State.construct Config.default

end Sys2Proof.Machine
end

