-- ==== Sys2Proof/Machine/Operands.lean ====
section
/-! DEFINITION. The stages of the two datapaths that work on bits, indices and symbols: ROM reads, bit strings, groups,
padding and markers (20_memory.md, 41_encoder.md R52 to R57, 42_decoder.md R64 to R68). -/

namespace Sys2Proof.Machine

/-- `RomRead(i) = ROM[i]`, total (20_memory.md R26). -/
def romRead (rom : Vector CHAR 8) (i : Index) : CHAR := rom[i.toNat]'i.isLt

/-- `MARKER = ROM[7]` (10_state.md R15). -/
def marker (rom : Vector CHAR 8) : CHAR := romRead rom 7#3

/-- `RomSearch(c)` (20_memory.md R27): the entries are compared in the order 0 to 7 by code point; `none` is `MISS`. -/
def romSearch (rom : Vector CHAR 8) (c : CHAR) : Option Index :=
  (rom.toList.findIdx? (fun e => e == c)).map (BitVec.ofNat 3)

/-- The bits of a byte, most significant first (R8, R29). -/
def byteBits (b : Byte) : Bits :=
  [b.getLsbD 7, b.getLsbD 6, b.getLsbD 5, b.getLsbD 4, b.getLsbD 3, b.getLsbD 2, b.getLsbD 1, b.getLsbD 0]

/-- Stage E2, `BitString` (41_encoder.md R52, 20_memory.md R29). -/
def bitString (bytes : List Byte) : Bits := bytes.flatMap byteBits

/-- Stage E3, `PadCount` of a bit string of length `L` (41_encoder.md R53). -/
def padCount (L : Nat) : Nat := (3 - L % 3) % 3

/-- Stage E3b: append `p` zero bits (41_encoder.md R54). -/
def padBits (p : Nat) (bits : Bits) : Bits := bits ++ List.replicate p false

/-- The index of a group `[a, b, c]`: `4*a + 2*b + c` (30_encoding.md R44). -/
def groupIndex (a b c : Bool) : Index := BitVec.ofNat 3 (4 * a.toNat + 2 * b.toNat + c.toNat)

/-- Stage E4, the 3-bit bit-group extractor (41_encoder.md R55): consecutive groups of 3, left to right. After E3b no bit
is left over. -/
def extractGroups : Bits → List Index
  | a :: b :: c :: rest => groupIndex a b c :: extractGroups rest
  | _ => []

/-- Stage E5, the ROM forward map (41_encoder.md R56). -/
def mapRom (rom : Vector CHAR 8) (idx : List Index) : List CHAR := idx.map (romRead rom)

/-- Stage E6, the padding-marker injector (41_encoder.md R57). -/
def injectMarkers (rom : Vector CHAR 8) (p : Nat) (body : List CHAR) : List CHAR :=
  body ++ List.replicate p (romRead rom 7#3)

/-- Stage D1, the padding suffix detector (42_decoder.md R64): the detected Padding Count. -/
def detectPadding (rom : Vector CHAR 8) (input : List CHAR) : Nat :=
  let m := input.length
  if 2 ≤ m ∧ input[m - 2]? = some (marker rom) ∧ input[m - 1]? = some (marker rom) then 2
  else if 1 ≤ m ∧ input[m - 1]? = some (marker rom) then 1
  else 0

/-- Stage D1: the body `IN[0 .. m-P)` (R64). -/
def bodyOf (rom : Vector CHAR 8) (input : List CHAR) : List CHAR :=
  input.take (input.length - detectPadding rom input)

/-- Stage D2, reverse lookup of every symbol from index 0 upwards; the first one that is not in the ROM ends the command
(42_decoder.md R65). -/
def lookupSymbols (rom : Vector CHAR 8) : List CHAR → Except CodecError (List Index)
  | [] => .ok []
  | c :: cs =>
    match romSearch rom c with
    | none => .error (.invalidSymbol c)
    | some i =>
      match lookupSymbols rom cs with
      | .ok is => .ok (i :: is)
      | .error e => .error e

/-- The three bits of an index, most significant first, leading zeros kept (30_encoding.md R45). -/
def indexBits (v : Index) : Bits := [v.getLsbD 2, v.getLsbD 1, v.getLsbD 0]

/-- Stage D3, bit reconstruction (42_decoder.md R66). -/
def rebuildBits (idx : List Index) : Bits := idx.flatMap indexBits

/-- `K`, the number of bits removed: `2*P` under REFERENCE, `P` under CORRECTED (42_decoder.md R67). -/
def stripCount (mode : StripMode) (p : Nat) : Nat :=
  match mode with
  | .reference => 2 * p
  | .corrected => p

/-- Stage D4: `rbits[0 .. max(0, len(rbits) - K))`; a natural-number difference saturates at 0 (R67). -/
def stripBits (k : Nat) (rbits : Bits) : Bits := rbits.take (rbits.length - k)

/-- The byte of 8 bits, the first the most significant (20_memory.md R31). -/
def packByte (b7 b6 b5 b4 b3 b2 b1 b0 : Bool) : Byte :=
  BitVec.ofNat 8 (128 * b7.toNat + 64 * b6.toNat + 32 * b5.toNat + 16 * b4.toNat
    + 8 * b3.toNat + 4 * b2.toNat + 2 * b1.toNat + b0.toNat)

/-- Stage D5, the byte packer (42_decoder.md R68): complete groups of 8, left to right; fewer than 8 trailing bits are
discarded whatever their values. -/
def packBytes : Bits → List Byte
  | b7 :: b6 :: b5 :: b4 :: b3 :: b2 :: b1 :: b0 :: rest => packByte b7 b6 b5 b4 b3 b2 b1 b0 :: packBytes rest
  | _ => []

end Sys2Proof.Machine
end

