-- ==== Sys2Proof/Machine/Flags.lean ====
section
/-! DEFINITION. The status of a response (60_exceptions.md R78). The block has no other flag: nothing persists
(10_state.md R18). -/

namespace Sys2Proof.Machine

/-- `RSP.STATUS` of an error: 1 INVALID_SYMBOL, 2 INVALID_UTF8 (R78). -/
def errorStatus : CodecError → BitVec 2
  | .invalidSymbol _ => 1#2
  | .invalidUtf8 => 2#2

/-- `RSP.ERRSYM` of an error: the offending char for InvalidSymbol, absent for InvalidUtf8 (R78, R80, R81). -/
def errorSymbol : CodecError → Option CHAR
  | .invalidSymbol c => some c
  | .invalidUtf8 => none

/-- The response of a command that returns `out`: status 0 OK, ERRSYM absent (10_state.md R21). -/
def okResponse (out : List CHAR) : Response := ⟨0#2, none, out⟩

/-- The response of a command that raises `e`: its status and symbol, and no output (R83, D17). -/
def errorResponse (e : CodecError) : Response := ⟨errorStatus e, errorSymbol e, []⟩

end Sys2Proof.Machine
end

