-- ==== Sys2Proof/Machine/Ops.lean ====
section
/-! DEFINITION. The named operations over the state: the requesters' ports, the refusals, ending a command with a result
or an error, accepting a request, reset. -/

namespace Sys2Proof.Machine

/-- The entry of requester `r` in a rising list; an unlisted requester reads as fresh. -/
def portGet (r : Nat) : List (Nat × Port) → Port
  | [] => Port.fresh
  | (k, p) :: rest => if r < k then Port.fresh else if r = k then p else portGet r rest

/-- Write the entry of requester `r`, keeping the list rising. -/
def portPut (r : Nat) (p : Port) : List (Nat × Port) → List (Nat × Port)
  | [] => [(r, p)]
  | (k, q) :: rest =>
    if r < k then (r, p) :: (k, q) :: rest
    else if r = k then (r, p) :: rest
    else (k, q) :: portPut r p rest

/-- What the block and the interface hold for requester `r`. -/
def State.port (s : State) (r : Nat) : Port := portGet r s.ports

/-- Replace what is held for requester `r`. Every port the machine writes is BUSY or holds a response, so none is fresh. -/
def State.setPort (s : State) (r : Nat) (p : Port) : State := { s with ports := portPut r p s.ports }

/-- The block was built as the spec asks: `ALPHABET` is 8 distinct chars (R91) and the ROM holds it (R13). -/
def State.built (s : State) : Bool := alphabetOk s.config.alphabet && decide (s.rom.toList = s.config.alphabet)

/-- `MAX_IN_LEN != none and len(IN) > MAX_IN_LEN` (60_exceptions.md R79). -/
def State.overLimit (s : State) (input : List CHAR) : Bool :=
  match s.config.maxInLen with
  | none => false
  | some n => decide (n < input.length)

/-- Why the model refuses a command with this operand, if it does: the length is checked before anything else (R82), then
the construction of the block (R91), then that every element is a `CHAR` (R6). -/
def State.refusalOf (s : State) (input : List CHAR) : Option Refusal :=
  if s.overLimit input then some (.overLong s.serving)
  else if !s.built then some .badAlphabet
  else
    match firstNonChar input with
    | some c => some (.notAChar c)
    | none => none

/-- Run a command with this operand: refuse it, or let it take effect. -/
def State.runCommand (s : State) (input : List CHAR) (effect : State → State) : Host.Outcome State Fault Refusal :=
  match s.refusalOf input with
  | some r => .refused r
  | none => .next (effect s)

/-- End the command of the requester being served with a response: it is delivered to that requester, which returns to
IDLE, and nothing else changes (10_state.md R21, R22). -/
def State.respond (s : State) (q : Response) : State :=
  s.setPort s.serving { txn := .idle, rsp := some q, received := (s.port s.serving).received ++ [q] }

/-- `return out` (00_scope.md R10): end the command with status 0 and this output. -/
def State.returnOk (s : State) (out : List CHAR) : State := s.respond (okResponse out)

/-- `raise e`: the error response, which is the block's only analogue of taking an exception (60_exceptions.md R83). The
status and the symbol are set, the output is empty, the requester returns to IDLE; nothing is saved and there is no
handler. There is no return from an error (R84): the requester may issue its next command. -/
def State.raiseError (s : State) (e : CodecError) : State := s.respond (errorResponse e)

/-- Accept a request of requester `r`: it becomes BUSY (R22). No response of the new command exists yet, so the response
fields read as absent (DEDUCED, log 8); what was delivered before stays delivered. -/
def State.accept (s : State) (r : Nat) (q : Request) : State :=
  s.setPort r { txn := .busy q, rsp := none, received := (s.port r).received }

/-- One requester at reset: IDLE, a command in flight abandoned, no response pending (70_reset_and_hazards.md R90,
10_state.md R24). -/
def portReset (p : Port) : Port := { p with txn := .idle, rsp := none }

/-- Reset (R90): every requester IDLE; the ROM and the configuration unchanged. -/
def State.applyReset (s : State) : State :=
  { s with ports := (s.ports.map fun e => (e.1, portReset e.2)).filter fun e => decide (e.2 ≠ Port.fresh) }

/-- Requester `r` has no command in flight. -/
def State.isIdle (s : State) (r : Nat) : Bool := decide ((s.port r).txn = .idle)

/-- The request in flight of one port. -/
def txnRequest : Txn → Option Request
  | .idle => none
  | .busy q => some q

/-- The commands in flight, by requester. -/
def State.inFlight (s : State) : List (Nat × Request) :=
  s.ports.filterMap fun e => (txnRequest e.2.txn).map fun q => (e.1, q)

/-- The model does not refuse this request. -/
def State.admits (s : State) (q : Request) : Bool := (s.refusalOf q.input).isNone

/-- Taking the next input, where that is possible now: a reset always, a request only from an IDLE requester (R22).
DESIGN CHOICE (log 6; safe): inputs are taken in the order of the list, so a request of a BUSY requester waits and holds
back every input behind it, another requester's request or a reset too. -/
def State.inputActions (s : State) : List Action :=
  match s.inputs with
  | [] => []
  | .reset :: _ => [.reset]
  | .request r q :: _ => if s.isIdle r then [.accept r q] else []

/-- Completing a command in flight that the model does not refuse. A refused one gets no response (R79) and stands in
nobody else's way (R88). -/
def State.completions (s : State) : List Action :=
  s.inFlight.filterMap fun e => if s.admits e.2 then some (.complete e.1) else none

/-- Everything that may happen next, in any order (R88). -/
def State.candidates (s : State) : List Action := s.inputActions ++ s.completions

/-- Choose among the possible next events `a :: rest`: where there is more than one, by the free value (log 6). -/
def State.choose (s : State) (a : Action) (rest : List Action) : Action × State :=
  match rest with
  | [] => (a, s)
  | _ => ((a :: rest).getD (Config.freeChoice s.choices % (rest.length + 1)) a, { s with choices := s.choices + 1 })

end Sys2Proof.Machine
end

