-- ==== Sys2Proof/Machine/Utf8.lean ====
section
/-! DEFINITION. The two UTF-8 stages: the serialiser E1 (41_encoder.md R51) and the reconstructor D6 (42_decoder.md R69).
Their tables are the spec's, which marks them as general knowledge (93_implementation_defined.md G2, G3) and makes them
its rules. -/

namespace Sys2Proof.Machine

/-- The field `c[hi:lo]` of a code point, as a byte (00_scope.md R8). -/
def charField (c : CHAR) (hi lo : Nat) : Byte := (c.extractLsb' lo (hi - lo + 1)).setWidth 8

/-- One row of the table of R51 per case. Every `CHAR` falls in exactly one; a surrogate is no `CHAR` and is refused
before this stage (log 3). -/
def utf8EncodeChar (c : CHAR) : List Byte :=
  if c.toNat ≤ 0x7F then [charField c 6 0]
  else if c.toNat ≤ 0x7FF then [0xC0#8 + charField c 10 6, 0x80#8 + charField c 5 0]
  else if c.toNat ≤ 0xFFFF then
    [0xE0#8 + charField c 15 12, 0x80#8 + charField c 11 6, 0x80#8 + charField c 5 0]
  else [0xF0#8 + charField c 20 18, 0x80#8 + charField c 17 12, 0x80#8 + charField c 11 6, 0x80#8 + charField c 5 0]

/-- Stage E1, `UTF8Encode` (R51): no byte-order mark is added. -/
def utf8Encode (text : List CHAR) : List Byte := text.flatMap utf8EncodeChar

/-- A row of the table of R69: the length of the sequence and the range of its second byte. -/
structure LeadRow where
  len : Nat
  lo2 : Nat
  hi2 : Nat
deriving DecidableEq, Repr

/-- The row of a first byte (R69); `none` is "ill-formed". A sequence of one byte has no second byte. -/
def leadRow (b0 : Byte) : Option LeadRow :=
  let n := b0.toNat
  if n ≤ 0x7F then some ⟨1, 0, 0⟩
  else if n ≤ 0xC1 then none
  else if n ≤ 0xDF then some ⟨2, 0x80, 0xBF⟩
  else if n = 0xE0 then some ⟨3, 0xA0, 0xBF⟩
  else if n ≤ 0xEC then some ⟨3, 0x80, 0xBF⟩
  else if n = 0xED then some ⟨3, 0x80, 0x9F⟩
  else if n ≤ 0xEF then some ⟨3, 0x80, 0xBF⟩
  else if n = 0xF0 then some ⟨4, 0x90, 0xBF⟩
  else if n ≤ 0xF3 then some ⟨4, 0x80, 0xBF⟩
  else if n = 0xF4 then some ⟨4, 0x80, 0x8F⟩
  else none

/-- `lo <= b <= hi`. -/
def byteIn (lo hi : Nat) (b : Byte) : Bool := decide (lo ≤ b.toNat) && decide (b.toNat ≤ hi)

/-- The bits of `b` under `mask`, widened and shifted left by `k`: one summand of the value column of R69. -/
def bitsAt (b mask : Byte) (k : Nat) : CHAR := (b &&& mask).setWidth 21 <<< k

/-- The value of a two-byte sequence (R69). -/
def utf8Value2 (b0 b1 : Byte) : CHAR := bitsAt b0 0x1F 6 + bitsAt b1 0x3F 0

/-- The value of a three-byte sequence (R69). -/
def utf8Value3 (b0 b1 b2 : Byte) : CHAR := bitsAt b0 0x0F 12 + bitsAt b1 0x3F 6 + bitsAt b2 0x3F 0

/-- The value of a four-byte sequence (R69). -/
def utf8Value4 (b0 b1 b2 b3 : Byte) : CHAR :=
  bitsAt b0 0x07 18 + bitsAt b1 0x3F 12 + bitsAt b2 0x3F 6 + bitsAt b3 0x3F 0

/-- Stage D6, `UTF8Decode` (R69): `none` where it raises InvalidUtf8. The last case is a truncated sequence. -/
def utf8Decode : List Byte → Option (List CHAR)
  | [] => some []
  | b0 :: rest =>
    match leadRow b0 with
    | none => none
    | some row =>
      match row.len, rest with
      | 1, tail => (utf8Decode tail).map (b0.setWidth 21 :: ·)
      | 2, b1 :: tail =>
        if byteIn row.lo2 row.hi2 b1 then (utf8Decode tail).map (utf8Value2 b0 b1 :: ·) else none
      | 3, b1 :: b2 :: tail =>
        if byteIn row.lo2 row.hi2 b1 && byteIn 0x80 0xBF b2 then
          (utf8Decode tail).map (utf8Value3 b0 b1 b2 :: ·)
        else none
      | 4, b1 :: b2 :: b3 :: tail =>
        if byteIn row.lo2 row.hi2 b1 && byteIn 0x80 0xBF b2 && byteIn 0x80 0xBF b3 then
          (utf8Decode tail).map (utf8Value4 b0 b1 b2 b3 :: ·)
        else none
      | _, _ => none

end Sys2Proof.Machine
end

