-- ==== Sys2Proof/Machine/Decoder.lean ====
section
/-! DEFINITION. The DECODE command (42_decoder.md R70). -/

namespace Sys2Proof.Machine

/-- The bytes of a body whose indices are known: stages D3 to D5 (R66 to R68). -/
def rebuildBytes (mode : StripMode) (p : Nat) (idx : List Index) : List Byte :=
  packBytes (stripBits (stripCount mode p) (rebuildBits idx))

/-- The text of an encoded sequence, or the error it raises: stages D1 to D6 (R70). -/
def decodeText (rom : Vector CHAR 8) (mode : StripMode) (input : List CHAR) : Except CodecError (List CHAR) :=
  match lookupSymbols rom (bodyOf rom input) with
  | .error e => .error e
  | .ok idx =>
    match utf8Decode (rebuildBytes mode (detectPadding rom input) idx) with
    | none => .error .invalidUtf8
    | some text => .ok text

/-- DECODE (R70): the text with status 0, or the error response. -/
def execDecode (input : List CHAR) (s : State) : Host.Outcome State Fault Refusal :=
  s.runCommand input fun s =>
    match decodeText s.rom s.config.stripMode input with
    | .ok text => s.returnOk text
    | .error e => s.raiseError e

end Sys2Proof.Machine
end

