-- ==== Sys2Proof/Machine/Encoder.lean ====
section
/-! DEFINITION. The ENCODE command (41_encoder.md R58). -/

namespace Sys2Proof.Machine

/-- The body of the encoded sequence of a byte stream: stages E2 to E5 (R52 to R56). -/
def encodeBody (rom : Vector CHAR 8) (bytes : List Byte) : List CHAR :=
  let bits := bitString bytes
  mapRom rom (extractGroups (padBits (padCount bits.length) bits))

/-- The encoded sequence of a text: stages E1 to E6 (R58). -/
def encodeText (rom : Vector CHAR 8) (text : List CHAR) : List CHAR :=
  let bytes := utf8Encode text
  injectMarkers rom (padCount (bitString bytes).length) (encodeBody rom bytes)

/-- ENCODE (R58): never fails; status 0 and the encoded sequence. -/
def execEncode (input : List CHAR) (s : State) : Host.Outcome State Fault Refusal :=
  s.runCommand input fun s => s.returnOk (encodeText s.rom input)

end Sys2Proof.Machine
end

