-- ==== Sys2Proof/Machine/Dispatch.lean ====
section
/-! DEFINITION. The dispatch of a command to its meaning: one arm per constructor of `Instr`. -/

namespace Sys2Proof.Machine

/-- The meaning of a command of the requester `s.serving`. -/
def exec (i : Instr) (s : State) : Host.Outcome State Fault Refusal :=
  match i with
  -- 41_encoder.md R58
  | .encode input => Sys2Proof.Machine.execEncode input s
  -- 42_decoder.md R70
  | .decode input => Sys2Proof.Machine.execDecode input s

end Sys2Proof.Machine
end

