-- ==== Sys2Proof/Machine/Serve.lean ====
section
/-! DEFINITION. What one step performs: accepting a request, a reset, or the command in flight of a requester. -/

namespace Sys2Proof.Machine

/-- Execute the command in flight of requester `r`, whole (20_memory.md R36): decode its request and run its meaning for
that requester. A requester with nothing in flight has nothing to complete. A request that is no command gets the refusal
that `refusalOf` gives its operand, so that the length comes first here as in the meanings (60_exceptions.md R82; log 3). -/
def serve (r : Nat) (s : State) : Host.Outcome State Fault Refusal :=
  match (s.port r).txn with
  | .idle => .next s
  | .busy q =>
    match decode q with
    | .ok i => exec i { s with serving := r }
    | .error (.notAChar c) => .refused ((({ s with serving := r } : State).refusalOf q.input).getD (.notAChar c))

/-- Perform one possible event of a block that is built as R91 asks, which `nextEvent` has checked. An accepted request or a reset leaves the list of inputs. -/
def perform (a : Action) (s : State) : Host.Outcome State Fault Refusal :=
  match a with
  | .accept r q => .next ({ s with inputs := s.inputs.tail }.accept r q)
  | .reset => .next ({ s with inputs := s.inputs.tail }.applyReset)
  | .complete r => serve r s

/-- The next event. A block that is not built as R91 asks gets no behaviour at all: it accepts nothing, is not reset and
answers nothing (70_reset_and_hazards.md R91, 93_implementation_defined.md O3). Otherwise it is one of the possible events,
chosen freely. Where nothing is possible, either a refused command is in flight, and the model gives it no meaning (R79), or
the block waits for a request and nothing changes.
DESIGN CHOICE (log 9; safe): where several refused commands are in flight, the refusal that is reported is that of the
lowest-numbered requester, the first of `inFlight`. -/
def nextEvent (s : State) : Host.Outcome State Fault Refusal :=
  if s.built then
    match s.candidates with
    | a :: rest => perform (s.choose a rest).1 (s.choose a rest).2
    | [] =>
      match s.inFlight with
      | [] => .next s
      | (r, _) :: _ => serve r s
  else .refused .badAlphabet

/-- Requester `r` alone has a request in flight, just accepted, and nothing else is presented: other commands are
abandoned as at a reset. -/
def presentAlone (r : Nat) (q : Request) (s : State) : State := { s.applyReset with inputs := [] }.accept r q

end Sys2Proof.Machine
end

