-- ==== Sys2Proof/Machine/Step.lean ====
section
/-! DEFINITION. One step of the machine, and the placing of a command where the next step takes it. -/

namespace Sys2Proof.Machine

/-- One step: the next event at the interface (Machine/Serve.lean). -/
def step (s : State) : Host.Outcome State Fault Refusal := nextEvent s

/-- `s` with the command word `w` presented by requester 0, accepted, with the empty operand, and nothing else in flight
or presented: the very next step executes it. The block fetches nothing (10_state.md R17): a request is how a command
comes to run (DESIGN CHOICE, log 11). -/
def State.withFetchWord (s : State) (_nbits w : Nat) : State := presentAlone 0 (tableRequest w) s

end Sys2Proof.Machine
end

