-- ==== Sys2Proof/Safety.lean ====
section
/-! DEFINITION. The terms in which claims about the machine are stated: when a command executes, the response it gets when
issued alone, legal responses, the invariant of the state, and runs. -/

namespace Sys2Proof.Machine

/-- When a command executes and is not refused, said of the state and the operand alone: the block is built as R91 asks,
the operand is within `MAX_IN_LEN` (60_exceptions.md R79), and its elements are `CHAR`s (R6). -/
structure State.Runs (s : State) (i : Instr) : Prop where
  built  : s.built = true
  within : s.overLimit i.input = false
  chars  : i.wellFormed = true

/-- The response of a command issued alone: a function of the command, the ROM and STRIP_MODE (20_memory.md R36). -/
def responseAlone (rom : Vector CHAR 8) (mode : StripMode) : Instr → Response
  | .encode text => okResponse (encodeText rom text)
  | .decode input =>
    match decodeText rom mode input with
    | .ok text => okResponse text
    | .error e => errorResponse e

/-- A response the spec allows (60_exceptions.md R78, 10_state.md R21, 42_decoder.md R74). -/
structure Response.Legal (q : Response) : Prop where
  /-- Status 3 is never produced. -/
  status_ne : q.status ≠ 3#2
  /-- ERRSYM is present exactly when the status is INVALID_SYMBOL. -/
  errsym_iff : q.errsym.isSome = true ↔ q.status = 1#2
  /-- No output on an error. -/
  no_partial : q.status ≠ 0#2 → q.out = []
  /-- Every output element is a `CHAR`. -/
  out_chars : q.out.all isChar = true
  /-- The reported symbol is a `CHAR`. -/
  errsym_char : ∀ c ∈ q.errsym, isChar c = true

/-- The invariant of the state. -/
structure Inv (s : State) : Prop where
  /-- Every requester stands once, in rising order: it has at most one command in flight (R22, R88). -/
  rising : (s.ports.map Prod.fst).Pairwise (· < ·)
  /-- A requester that reads as fresh is not listed. -/
  listed : ∀ e ∈ s.ports, e.2 ≠ Port.fresh
  /-- While a command is in flight there is no response to read. -/
  no_stale : ∀ e ∈ s.ports, e.2.txn ≠ .idle → e.2.rsp = none
  /-- The response that can be read is the last one delivered. -/
  rsp_last : ∀ e ∈ s.ports, ∀ q ∈ e.2.rsp, e.2.received.getLast? = some q
  /-- Every response ever delivered is one the spec allows. -/
  legal : ∀ e ∈ s.ports, ∀ q ∈ e.2.received, q.Legal

/-- Nothing is in flight and nothing is presented. -/
def State.Quiet (s : State) : Prop := s.inputs = [] ∧ s.inFlight = []

/-- How many steps can still change something: two for a presented input (accept, complete), one for a command in flight. -/
def State.work (s : State) : Nat := 2 * s.inputs.length + s.inFlight.length

/-- The requests among the presented inputs that are requester `r`'s, in order. -/
def presentedBy (r : Nat) : List Input → List Request
  | [] => []
  | .reset :: rest => presentedBy r rest
  | .request k q :: rest => if k = r then q :: presentedBy r rest else presentedBy r rest

/-- The commands of requester `r` that have no response yet: the one in flight, then the presented ones, in order. -/
def State.outstanding (s : State) (r : Nat) : List Request :=
  (txnRequest (s.port r).txn).toList ++ presentedBy r s.inputs

/-- No command in flight or presented is one the model refuses. -/
def State.AllAdmitted (s : State) : Prop :=
  (∀ e ∈ s.inFlight, s.admits e.2 = true) ∧ ∀ r q, Input.request r q ∈ s.inputs → s.admits q = true

/-- `k` steps of the machine, stopping at the first refusal. -/
def runSteps (k : Nat) (s : State) : Host.Outcome State Fault Refusal := Host.Core.run Sys2Proof.core k s

/-- How many bytes of an encoded byte stream DECODE gives back (42_decoder.md R75, the columns `n'`). -/
def keptBytes (mode : StripMode) (bytes : List Byte) : Nat :=
  let n := bytes.length
  let last := (bytes.getLastD 0).toNat
  if n % 3 ≠ 0 then
    match mode with
    | .reference => n - 1
    | .corrected => n
  else if n = 0 ∨ last % 8 ≠ 7 then n
  else if last % 64 ≠ 63 then n - 1
  else
    match mode with
    | .reference => n - 2
    | .corrected => n - 1

end Sys2Proof.Machine
end

