-- ==== Sys2Proof/Certificates/Slice0/Obligations.lean ====
section
/-! DEFINITION. The statements for the provers, in the order of OBLIGATIONS.json. -/

open Sys2Proof Sys2Proof.Machine

/-! ### The command and its encoding -/

/-- 30_encoding.md R41 (decision D3 of the spec): `OP = 0` is ENCODE, `OP = 1` is DECODE, the operand is `IN`; the two
command words of opcode_table.json, with the empty operand, decode to them. -/
def Obligations.CommandBitSelectsCommand : Prop :=
  (∀ t : List CHAR, t.all isChar = true →
    decode ⟨0#1, t⟩ = .ok (.encode t) ∧ decode ⟨1#1, t⟩ = .ok (.decode t)) ∧
  decodeTableWord 8 0 = some (.encode []) ∧ decodeTableWord 8 1 = some (.decode [])

/-- 30_encoding.md R42 (D3): both values of `OP` are defined, so no command word is reserved or illegal: every request
whose operand is a sequence of `CHAR`s is a command, with that operand. -/
def Obligations.EveryCommandWordIsDefined : Prop :=
  ∀ q : Request, q.input.all isChar = true → ∃ i, decode q = .ok i ∧ i.input = q.input

/-- Decode and encode agree in both directions: a well-formed command comes back from its request, and a request that
decodes is the encoding of a well-formed command. That a request with a non-`CHAR` is rejected is the model's choice
(log 3). -/
def Obligations.DecodeEncodeAgree : Prop :=
  (∀ i : Instr, i.wellFormed = true → decode (encode i) = .ok i) ∧
  (∀ (q : Request) (i : Instr), decode q = .ok i → encode i = q ∧ i.wellFormed = true)

/-! ### The ROM -/

/-- 20_memory.md R27: `RomSearch(c)` is the unique `i` with `ROM[i] = c`, and MISS when there is none. -/
def Obligations.RomSearchInvertsRomRead : Prop :=
  ∀ s : State, s.built = true → ∀ c : CHAR,
    (∀ i : Index, romSearch s.rom c = some i ↔ romRead s.rom i = c) ∧
    (romSearch s.rom c = none ↔ ∀ i : Index, romRead s.rom i ≠ c)

/-- 10_state.md R14: the ROM holds 8 pairwise distinct entries, and a configuration that breaks this is refused. -/
def Obligations.RomEntriesAreDistinct : Prop :=
  (∀ s : State, s.built = true →
    s.rom.toList.length = 8 ∧ ∀ i j : Index, romRead s.rom i = romRead s.rom j → i = j) ∧
  (∀ (s : State) (i : Instr), ¬ (s.config.alphabet.length = 8 ∧ s.config.alphabet.Nodup) →
    ∃ r, exec i s = .refused r)

/-- 20_memory.md R28: no command writes the ROM, and nothing else does; the contents are constant. The configuration is
constant as well (10_state.md R19). -/
def Obligations.StepKeepsRomAndConfiguration : Prop :=
  ∀ s t : State, step s = .next t → t.rom = s.rom ∧ t.config = s.config

/-! ### Bits, groups and bytes -/

/-- 20_memory.md R29 and 41_encoder.md R52: bit `8j + k` of the bit string is bit `7 - k` of byte `j`, and the length is
`8n`. -/
def Obligations.BitStringIsMsbFirst : Prop :=
  ∀ bytes : List Byte, (bitString bytes).length = 8 * bytes.length ∧
    ∀ (j k : Nat) (b : Byte), bytes[j]? = some b → k < 8 →
      (bitString bytes)[8 * j + k]? = some (b.getLsbD (7 - k))

/-- 41_encoder.md R54: exactly `P` zero bits are appended at the end and nothing else changes; the length is then `8n + P`,
a multiple of 3. `P` is that of R53. -/
def Obligations.PaddingCompletesTheLastGroup : Prop :=
  ∀ bytes : List Byte,
    let bits := bitString bytes
    let P := (3 - bits.length % 3) % 3
    padCount bits.length = P ∧ padBits P bits = bits ++ List.replicate P false ∧
      (padBits P bits).length = 8 * bytes.length + P ∧ (padBits P bits).length % 3 = 0

/-- 41_encoder.md R55 and 30_encoding.md R44: group `g` of the padded bit string is the unsigned number
`4*pbits[3g] + 2*pbits[3g+1] + pbits[3g+2]`, and there are `len div 3` groups. -/
def Obligations.GroupsAreMsbFirst : Prop :=
  ∀ pbits : Bits, pbits.length % 3 = 0 → (extractGroups pbits).length = pbits.length / 3 ∧
    ∀ (g : Nat) (a b c : Bool), pbits[3 * g]? = some a → pbits[3 * g + 1]? = some b → pbits[3 * g + 2]? = some c →
      ∃ v, (extractGroups pbits)[g]? = some v ∧ v.toNat = 4 * a.toNat + 2 * b.toNat + c.toNat

/-- 42_decoder.md R66 and 30_encoding.md R45: an index becomes exactly its three bits, most significant first, in sequence
order, and this is the inverse of the group extractor. -/
def Obligations.RebuiltBitsAreMsbFirst : Prop :=
  ∀ idx : List Index, (rebuildBits idx).length = 3 * idx.length ∧
    (∀ (g k : Nat) (v : Index), idx[g]? = some v → k < 3 →
      (rebuildBits idx)[3 * g + k]? = some (v.getLsbD (2 - k))) ∧
    extractGroups (rebuildBits idx) = idx

/-- 42_decoder.md R67 (decisions D11 and D19 of the spec): the last `K` bits are removed, all of them when there are fewer;
`K` is `2*P` under REFERENCE and `P` under CORRECTED. -/
def Obligations.StripRemovesTheLastBits : Prop :=
  ∀ (p : Nat) (rbits : Bits),
    stripCount .reference p = 2 * p ∧ stripCount .corrected p = p ∧
    ∀ mode : StripMode, ∃ removed : Bits,
      rbits = stripBits (stripCount mode p) rbits ++ removed ∧
      removed.length = min (stripCount mode p) rbits.length

/-- 42_decoder.md R68: there are `len div 8` bytes, byte `j` is the sum of `sbits[8j + k] * 2^(7-k)`, and the trailing bits
that fill no byte do not matter. -/
def Obligations.BytePackerIsMsbFirst : Prop :=
  (∀ sbits : Bits, (packBytes sbits).length = sbits.length / 8 ∧
    ∀ j, j < sbits.length / 8 → ∃ b, (packBytes sbits)[j]? = some b ∧
      b.toNat = ((List.range 8).map fun k => (sbits.getD (8 * j + k) false).toNat * 2 ^ (7 - k)).sum) ∧
  (∀ sbits tail : Bits, sbits.length % 8 = 0 → tail.length < 8 → packBytes (sbits ++ tail) = packBytes sbits)

/-- 20_memory.md section 2: packing is the inverse of the bit string (the spec's inference in R31). -/
def Obligations.BytePackerInvertsBitString : Prop :=
  ∀ bytes : List Byte, packBytes (bitString bytes) = bytes

/-! ### UTF-8 -/

/-- 41_encoder.md R51 (the spec's general knowledge G2): the byte stream of a text, as numbers: each `CHAR` in order gives
the bytes of its row of the table, and nothing is prepended. -/
def Obligations.SerialiserFollowsTable : Prop :=
  ∀ t : List CHAR, t.all isChar = true →
    (utf8Encode t).map BitVec.toNat = t.flatMap fun c =>
      let n := c.toNat
      if n ≤ 0x7F then [n]
      else if n ≤ 0x7FF then [0xC0 + n / 2 ^ 6, 0x80 + n % 2 ^ 6]
      else if n ≤ 0xFFFF then [0xE0 + n / 2 ^ 12, 0x80 + n / 2 ^ 6 % 2 ^ 6, 0x80 + n % 2 ^ 6]
      else [0xF0 + n / 2 ^ 18, 0x80 + n / 2 ^ 12 % 2 ^ 6, 0x80 + n / 2 ^ 6 % 2 ^ 6, 0x80 + n % 2 ^ 6]

/-- 41_encoder.md section 1 and 42_decoder.md section 1: the reconstructor accepts exactly the byte sequences the
serialiser produces, and gives back the text. So overlong forms, surrogates, values above U+10FFFF, stray continuation
bytes and truncated sequences are all rejected, and every value produced is a `CHAR`. -/
def Obligations.ReconstructorInvertsSerialiser : Prop :=
  ∀ (bytes : List Byte) (text : List CHAR),
    utf8Decode bytes = some text ↔ (text.all isChar = true ∧ utf8Encode text = bytes)

/-- 42_decoder.md section 3 (the spec's inference in R71): a well-formed sequence of `nB` bytes has between `ceil(nB/4)`
and `nB` characters, and DECODE forms `max(0, 3b - K) div 8` bytes from a body of `b` symbols. -/
def Obligations.DecodedLengthIsBounded : Prop :=
  (∀ (bytes : List Byte) (text : List CHAR), utf8Decode bytes = some text →
    (bytes.length + 3) / 4 ≤ text.length ∧ text.length ≤ bytes.length) ∧
  (∀ (mode : StripMode) (p : Nat) (idx : List Index),
    (rebuildBytes mode p idx).length = (3 * idx.length - stripCount mode p) / 8)

/-! ### ENCODE -/

/-- 41_encoder.md R58: ENCODE answers with status 0 and the output of its stages, and the requester returns to IDLE; that
is the whole next state. -/
def Obligations.EncodeDeliversItsStages : Prop :=
  ∀ (s : State) (t : List CHAR), s.Runs (.encode t) →
    let bits := bitString (utf8Encode t)
    let P := (3 - bits.length % 3) % 3
    let idx := extractGroups (bits ++ List.replicate P false)
    let out := idx.map (romRead s.rom) ++ List.replicate P (romRead s.rom 7#3)
    let q : Response := ⟨0#2, none, out⟩
    exec (.encode t) s =
      .next (s.setPort s.serving { txn := .idle, rsp := some q, received := (s.port s.serving).received ++ [q] })

/-- 41_encoder.md R62: ENCODE of every `CHAR` sequence within `MAX_IN_LEN` answers status 0 and the output of R58,
`encodeText rom t`, the same every time, whatever the rest of the state. -/
def Obligations.EncodeNeverFails : Prop :=
  ∀ (rom : Vector CHAR 8) (t : List CHAR) (s : State), s.rom = rom → s.Runs (.encode t) →
    ∃ u, exec (.encode t) s = .next u ∧ (u.port s.serving).rsp = some ⟨0#2, none, encodeText rom t⟩

/-- 30_encoding.md section 3 and 41_encoder.md section 3 (R46, R59, whose closed forms are the spec's inferences): the
encoded sequence is `ceil(8n/3)` body symbols, symbol `g` the ROM entry of bits `3g .. 3g+2` of the bit string read with
zeros after its end, then `n mod 3` markers. -/
def Obligations.EncodedSequenceHasTheWireFormat : Prop :=
  ∀ (rom : Vector CHAR 8) (t : List CHAR),
    let bits := bitString (utf8Encode t)
    let n := (utf8Encode t).length
    ∃ body : List CHAR, encodeText rom t = body ++ List.replicate (n % 3) (marker rom) ∧
      body.length = (8 * n + 2) / 3 ∧
      ∀ g, g < body.length → body[g]? = some (romRead rom
        (BitVec.ofNat 3 (4 * (bits.getD (3 * g) false).toNat + 2 * (bits.getD (3 * g + 1) false).toNat
          + (bits.getD (3 * g + 2) false).toNat)))

/-- 41_encoder.md R60: ENCODE of the empty text answers status 0 and the empty output. -/
def Obligations.EncodeOfEmptyTextIsEmpty : Prop :=
  ∀ s : State, s.built = true →
    ∃ u, exec (.encode []) s = .next u ∧ (u.port s.serving).rsp = some ⟨0#2, none, []⟩

/-- 41_encoder.md R61: every emitted symbol is a ROM entry, and the trailing run of markers is `ROM[7]` only. -/
def Obligations.EncodeStaysInAlphabet : Prop :=
  ∀ (s : State) (t : List CHAR), s.Runs (.encode t) →
    ∃ u body, exec (.encode t) s = .next u ∧
      (u.port s.serving).rsp = some ⟨0#2, none,
        body ++ List.replicate (padCount (bitString (utf8Encode t)).length) (romRead s.rom 7#3)⟩ ∧
      ∀ c ∈ body, ∃ i : Index, c = romRead s.rom i

/-- 20_memory.md section 2 (R32, element order): symbols come in the order of the characters, so a text whose UTF-8 length
is a multiple of 3 is encoded in front of what follows it. -/
def Obligations.EncodeConcatenates : Prop :=
  ∀ (rom : Vector CHAR 8) (x y : List CHAR), (utf8Encode x).length % 3 = 0 →
    encodeText rom (x ++ y) = encodeText rom x ++ encodeText rom y

/-- 30_encoding.md section 3 (the spec's inference R47): how an encoded sequence ends. With one padding bit the last body
symbol is even, with two it is 0 or 4, with none it is the low three bits of the last byte; and no encoded sequence ends
with three markers. -/
def Obligations.EncodedTailIsAsSpecified : Prop :=
  ∀ (s : State) (t : List CHAR) (front : List Byte) (last : Byte), s.built = true → t.all isChar = true →
    utf8Encode t = front ++ [last] →
    let n := (utf8Encode t).length
    let M := marker s.rom
    (n % 3 = 1 → ∃ pre, encodeText s.rom t = pre ++ [romRead s.rom (BitVec.ofNat 3 (2 * (last.toNat % 4))), M]) ∧
    (n % 3 = 2 → ∃ pre, encodeText s.rom t = pre ++ [romRead s.rom (BitVec.ofNat 3 (4 * (last.toNat % 2))), M, M]) ∧
    (n % 3 = 0 → ∃ pre, encodeText s.rom t = pre ++ [romRead s.rom (BitVec.ofNat 3 (last.toNat % 8))]) ∧
    (∀ pre, encodeText s.rom t ≠ pre ++ [M, M, M])

/-- 41_encoder.md section 3 (the spec's inference R63): two texts have the same encoding exactly when they are equal, or
one is the other with a question mark added to a UTF-8 length of `2 mod 3`. -/
def Obligations.EncodeCollidesOnlyOnQuestionMark : Prop :=
  ∀ (s : State) (x y : List CHAR), s.built = true → x.all isChar = true → y.all isChar = true →
    (encodeText s.rom x = encodeText s.rom y ↔
      x = y ∨ ((utf8Encode x).length % 3 = 2 ∧ y = x ++ [0x3F#21]) ∨
      ((utf8Encode y).length % 3 = 2 ∧ x = y ++ [0x3F#21]))

/-! ### DECODE -/

/-- 42_decoder.md R64 (D12): `P = 2` when the input ends with two markers, else 1 when it ends with one, else 0, and the
body is the input without those `P` markers. -/
def Obligations.SuffixDetectorTakesAtMostTwoMarkers : Prop :=
  ∀ (rom : Vector CHAR 8) (input : List CHAR),
    let M := marker rom
    input = bodyOf rom input ++ List.replicate (detectPadding rom input) M ∧
    (detectPadding rom input = 2 ↔ ∃ pre, input = pre ++ [M, M]) ∧
    (detectPadding rom input = 1 ↔ (∃ pre, input = pre ++ [M]) ∧ ¬ ∃ pre, input = pre ++ [M, M]) ∧
    (detectPadding rom input = 0 ↔ ¬ ∃ pre, input = pre ++ [M])

/-- 42_decoder.md R73 and 60_exceptions.md R80 (D10): DECODE of an input with a char that is not in the ROM answers status
1 with the leftmost such char and no output, whatever else the input holds; that is the whole next state. -/
def Obligations.UnknownSymbolEndsDecode : Prop :=
  ∀ (s : State) (pre post : List CHAR) (c : CHAR), s.Runs (.decode (pre ++ c :: post)) →
    (∀ d ∈ pre, ∃ i : Index, romRead s.rom i = d) → (∀ i : Index, romRead s.rom i ≠ c) →
    let q : Response := ⟨1#2, some c, []⟩
    exec (.decode (pre ++ c :: post)) s =
      .next (s.setPort s.serving { txn := .idle, rsp := some q, received := (s.port s.serving).received ++ [q] })

/-- 60_exceptions.md R81 and the rest of 42_decoder.md section 2 (R70): when every char is in the ROM, `idx` being the
indices of the body, DECODE answers the text of the reconstructed bytes with status 0, or status 2 without output when they
are not well-formed UTF-8; that is the whole next state. -/
def Obligations.DecodeOfRomSymbols : Prop :=
  ∀ (s : State) (input : List CHAR) (idx : List Index), s.Runs (.decode input) →
    bodyOf s.rom input = idx.map (romRead s.rom) →
    let K := match s.config.stripMode with
      | .reference => 2 * detectPadding s.rom input
      | .corrected => detectPadding s.rom input
    let rbits := idx.flatMap fun v => [v.getLsbD 2, v.getLsbD 1, v.getLsbD 0]
    let rbytes := packBytes (rbits.take (rbits.length - K))
    let q : Response := match utf8Decode rbytes with
      | some text => ⟨0#2, none, text⟩
      | none => ⟨2#2, none, []⟩
    exec (.decode input) s =
      .next (s.setPort s.serving { txn := .idle, rsp := some q, received := (s.port s.serving).received ++ [q] })

/-- 42_decoder.md section 3 (R72): DECODE of the empty input answers status 0 and the empty output, in either mode. -/
def Obligations.DecodeOfEmptyInputIsEmpty : Prop :=
  ∀ s : State, s.built = true →
    ∃ u, exec (.decode []) s = .next u ∧ (u.port s.serving).rsp = some ⟨0#2, none, []⟩

/-- 42_decoder.md section 2 (a corner case of R70, the spec's inference, and 90_conflicts.md C10): an input of at most five
markers decodes to the empty text, one of six or more is InvalidUtf8, in either mode. -/
def Obligations.DecodeOfMarkersOnly : Prop :=
  ∀ (s : State) (mode : StripMode) (k : Nat), s.built = true →
    decodeText s.rom mode (List.replicate k (marker s.rom)) = if k ≤ 5 then .ok [] else .error .invalidUtf8

/-! ### DECODE after ENCODE -/

/-- 42_decoder.md section 4 (the spec's inference R75): DECODE of an encoded text never raises InvalidSymbol and gives the
text of the first `n'` bytes, or InvalidUtf8 when they cut a character; `n'` is the table's, `keptBytes`. -/
def Obligations.DecodeAfterEncodeKeepsAPrefix : Prop :=
  ∀ (s : State) (mode : StripMode) (x : List CHAR), s.built = true → x.all isChar = true →
    decodeText s.rom mode (encodeText s.rom x) =
      match utf8Decode ((utf8Encode x).take (keptBytes mode (utf8Encode x))) with
      | some text => .ok text
      | none => .error .invalidUtf8

/-- 42_decoder.md section 4 (the spec's inference R76): exactly which texts survive the round trip, by mode. -/
def Obligations.RoundTripHoldsExactlyWhen : Prop :=
  ∀ (s : State) (x : List CHAR), s.built = true → x.all isChar = true →
    let n := (utf8Encode x).length
    let kept := x = [] ∨ (n % 3 = 0 ∧ ((utf8Encode x).getLastD 0).toNat % 8 ≠ 7)
    (decodeText s.rom .reference (encodeText s.rom x) = .ok x ↔ kept) ∧
    (decodeText s.rom .corrected (encodeText s.rom x) = .ok x ↔ kept ∨ n % 3 ≠ 0)

/-- 42_decoder.md R77: ENCODE is not injective (a question mark after a UTF-8 length of `2 mod 3` is lost), the round trip
fails in either mode, and no decoder whatever inverts ENCODE on every text. -/
def Obligations.NoDecoderInvertsEncode : Prop :=
  ∀ rom : Vector CHAR 8,
    (∀ t : List CHAR, (utf8Encode t).length % 3 = 2 → encodeText rom t = encodeText rom (t ++ [0x3F#21])) ∧
    (∀ mode : StripMode, ∃ x : List CHAR, x.all isChar = true ∧ decodeText rom mode (encodeText rom x) ≠ .ok x) ∧
    ¬ ∃ f : List CHAR → List CHAR, ∀ x : List CHAR, x.all isChar = true → f (encodeText rom x) = x

/-! ### Responses, frames and independence -/

/-- 60_exceptions.md R78 (D4): every completed command has one response, of status 0, 1 or 2, with a symbol exactly for
status 1, which is the offending char, and an output only for status 0; ENCODE always answers 0. -/
def Obligations.ResponsesAreLegal : Prop :=
  ∀ (i : Instr) (s u : State), exec i s = .next u →
    ∃ q, (u.port s.serving).rsp = some q ∧ q.Legal ∧
      (∀ c ∈ q.errsym, c ∈ i.input ∧ ∀ k : Index, romRead s.rom k ≠ c) ∧ ∀ t, i = .encode t → q.status = 0#2

/-- 20_memory.md R39: a command has no effect other than its response (the frame of both commands: the ROM, the
configuration, the inputs and every other requester are unchanged, one response is delivered, the requester is IDLE), and
the same request twice gets the same response twice. -/
def Obligations.CommandHasNoOtherEffect : Prop :=
  ∀ (i : Instr) (s u : State), exec i s = .next u →
    u.rom = s.rom ∧ u.config = s.config ∧ u.inputs = s.inputs ∧ u.serving = s.serving ∧ u.choices = s.choices ∧
    (∀ r, r ≠ s.serving → u.port r = s.port r) ∧
    ∃ q, u.port s.serving = { txn := .idle, rsp := some q, received := (s.port s.serving).received ++ [q] } ∧
      ∃ v, exec i u = .next v ∧ (v.port s.serving).rsp = some q

/-- 20_memory.md section 3 (R36): the response depends on the command, the ROM and STRIP_MODE only; nothing else of the
state, no other requester and no earlier command, can be learnt from it. -/
def Obligations.ResponseDependsOnRomAndModeOnly : Prop :=
  ∀ (i : Instr) (s s' : State), s.rom = s'.rom → s.config.stripMode = s'.config.stripMode → s.Runs i → s'.Runs i →
    ∃ u u', exec i s = .next u ∧ exec i s' = .next u' ∧ (u.port s.serving).rsp = (u'.port s'.serving).rsp

/-- 60_exceptions.md section 3 (R84): after any response, an error too, the requester is IDLE and its next command gets the
response it would have got without the earlier command. -/
def Obligations.NextCommandIgnoresEarlierError : Prop :=
  ∀ (i j : Instr) (s u : State), exec i s = .next u → s.Runs j →
    u.isIdle s.serving = true ∧
    ∃ v w, exec j s = .next v ∧ exec j u = .next w ∧ (w.port s.serving).rsp = (v.port s.serving).rsp

/-- 70_reset_and_hazards.md R91 (D20): a block whose alphabet is not 8 distinct `CHAR`s refuses every command, and has no
behaviour: no step accepts a request, takes a reset, delivers a response or even idles. -/
def Obligations.BadAlphabetRefusesEveryCommand : Prop :=
  ∀ s : State, alphabetOk s.config.alphabet = false →
    (∀ i : Instr, s.overLimit i.input = false → exec i s = .refused .badAlphabet) ∧
    (∀ i : Instr, s.overLimit i.input = true → exec i s = .refused (.overLong s.serving)) ∧
    step s = .refused .badAlphabet

/-- 60_exceptions.md R79 (D13): a command longer than `MAX_IN_LEN` is refused, before anything else is looked at, and so is
one in flight when it comes to be completed; with no limit no command is refused for its length. -/
def Obligations.OverLongCommandIsRefused : Prop :=
  (∀ (s : State) (i : Instr) (n : Nat), s.config.maxInLen = some n → n < i.input.length →
    exec i s = .refused (.overLong s.serving)) ∧
  (∀ (s : State) (r : Nat) (q : Request) (n : Nat), s.config.maxInLen = some n → n < q.input.length →
    (s.port r).txn = .busy q → serve r s = .refused (.overLong r)) ∧
  (∀ (s : State) (i : Instr), s.config.maxInLen = none → ∀ r, exec i s ≠ .refused (.overLong r))

/-! ### The machine -/

/-- 10_state.md section 5: a step runs the decoded command: when completing the command of requester `r` is the only
possible event, and its request decodes to `i`, the step is the meaning of `i` for that requester. The spec leaves the time
of the response open: that the very next step gives it is the model's (a step never idles, log 7), as is `serving` (log
5). -/
def Obligations.StepRunsDecodedCommand : Prop :=
  ∀ (s : State) (r : Nat) (q : Request) (i : Instr),
    s.candidates = [.complete r] → (s.port r).txn = .busy q → decode q = .ok i →
    step s = exec i { s with serving := r }

/-- 10_state.md section 5: the word placed by `withFetchWord` is what the very next step runs (the model's: logs 5, 7 and
11). -/
def Obligations.FetchWordRunsNext : Prop :=
  ∀ (s : State) (nbits w : Nat) (i : Instr), decodeTableWord nbits w = some i →
    step (s.withFetchWord nbits w) = exec i { s.withFetchWord nbits w with serving := 0 }

/-- 60_exceptions.md section 5 (R88): a step of a built block performs one of the possible events; a command among them is
run whole, as decoded; where nothing is presented and nothing is in flight nothing changes; and a block that is not built as
R91 asks gets no step. That a step always performs an event when one is possible, and that a quiet block steps to itself, are
the model's (log 7), as are the list of inputs behind the possible events (log 6), `serving` (log 5), and the refusal where
only the ROM is wrong (log 10). -/
def Obligations.StepPerformsOnePossibleEvent : Prop :=
  (∀ s : State, s.built = true → s.candidates ≠ [] → ∃ a ∈ s.candidates, ∃ n, step s = perform a { s with choices := n }) ∧
  (∀ (s : State) (r : Nat) (q : Request) (i : Instr), (s.port r).txn = .busy q → decode q = .ok i →
    perform (.complete r) s = exec i { s with serving := r }) ∧
  (∀ s : State, s.built = true → s.Quiet → step s = .next s) ∧
  (∀ s : State, s.built = false → step s = .refused .badAlphabet)

/-- 10_state.md section 5 (R22): all that a step can do to a requester: nothing; accept its next request, only from IDLE;
answer the command in flight, one the model does not refuse, with the response it gets alone and return it to IDLE; or reset
it to IDLE without a response. That no response can be read while a command is in flight, and that delivered ones are kept,
are the model's (log 8). -/
def Obligations.RequesterMovesBetweenIdleAndBusy : Prop :=
  ∀ (s t : State) (r : Nat), Inv s → step s = .next t →
    t.port r = s.port r ∨
    (∃ q, (s.port r).txn = .idle ∧ s.inputs = .request r q :: t.inputs ∧
      t.port r = { txn := .busy q, rsp := none, received := (s.port r).received }) ∨
    (∃ q i, (s.port r).txn = .busy q ∧ decode q = .ok i ∧ s.Runs i ∧
      let a := responseAlone s.rom s.config.stripMode i
      t.port r = { txn := .idle, rsp := some a, received := (s.port r).received ++ [a] }) ∨
    (s.inputs = .reset :: t.inputs ∧ t.port r = { txn := .idle, rsp := none, received := (s.port r).received })

/-- 70_reset_and_hazards.md section 1 (R90, D15): reset keeps the ROM and the configuration and makes every requester IDLE; a
command in flight is abandoned, so that no response can be delivered until another command is accepted; and the block accepts a
command at once. A reset that the machine takes from its inputs is this reset. That the response fields then read as absent
is 10_state.md R24's. That a reset stands in a list of inputs and is taken from it is the model's (log 6), as are that the
very next step takes it when it is the only possible event (log 7) and that delivered responses are kept (log 8). -/
def Obligations.ResetAbandonsCommandsInFlight : Prop :=
  ∀ s : State, Inv s →
    s.applyReset.rom = s.rom ∧ s.applyReset.config = s.config ∧
    (∀ r, s.applyReset.port r = { txn := .idle, rsp := none, received := (s.port r).received }) ∧
    s.applyReset.inFlight = [] ∧
    (∀ (rest : List Input) (r : Nat) (q : Request),
      { s.applyReset with inputs := .request r q :: rest }.candidates = [.accept r q]) ∧
    perform .reset s = .next { s with inputs := s.inputs.tail }.applyReset ∧
    (s.built = true → s.candidates = [.reset] → ∃ t, step s = .next t ∧ t.rom = s.rom ∧ t.config = s.config ∧
      t.inputs = s.inputs.tail ∧ ∀ r, t.port r = { txn := .idle, rsp := none, received := (s.port r).received })

/-- 10_state.md R24 (D15): the state after reset: the ROM holds the alphabet, the configuration is that of the
construction, every requester is IDLE, nothing is in flight and no response exists. -/
def Obligations.StateAfterReset : Prop :=
  ∀ c : Config,
    let s := State.construct c
    (alphabetOk c.alphabet = true → ∀ i : Index, some (romRead s.rom i) = c.alphabet[i.toNat]?) ∧
    s.config = c ∧ s.inFlight = [] ∧ ∀ r, s.port r = { txn := .idle, rsp := none, received := [] }

/-- The invariant holds of every constructed block, and of `State.reset`, which the model builds with an alphabet of its
choice (log 1). -/
def Obligations.ConstructedBlockHasInvariant : Prop :=
  (∀ c : Config, Inv (State.construct c) ∧ ((State.construct c).built = true ↔ alphabetOk c.alphabet = true)) ∧
  Inv State.reset ∧ State.reset.built = true

/-- Every step keeps the invariant: at most one command in flight for each requester (R22, R88), and every response ever
delivered is one the spec allows (R78). Its clauses that no response can be read while a command is in flight and that the
readable response is the last delivered one are the model's (log 8). -/
def Obligations.StepKeepsInvariant : Prop :=
  ∀ s t : State, Inv s → step s = .next t → Inv t

/-- 60_exceptions.md section 5 (R88): the order in which two requesters are served is not observable: serving them in the
other order gives the same state, up to the model's own `serving`. -/
def Obligations.ServingOrderIsNotObservable : Prop :=
  ∀ (s a b : State) (r k : Nat), r ≠ k → serve r s = .next a → serve k a = .next b →
    ∃ c d, serve k s = .next c ∧ serve r c = .next d ∧ { d with serving := b.serving } = b

/-- 70_reset_and_hazards.md section 3 (R97): every accepted command eventually responds unless a reset abandons it: when
the block is built and the model refuses none of the commands, the machine comes to rest within `work` steps, whatever the
free choice (a step never idles: log 7). -/
def Obligations.MachineComesToRest : Prop :=
  ∀ (s : State) (k : Nat), Inv s → s.built = true → s.AllAdmitted → s.work ≤ k → ∃ t, runSteps k s = .next t ∧ t.Quiet

/-- 20_memory.md section 3 and 60_exceptions.md section 5 (R36, R88, R97): commands of any requesters, presented in any
order and completed in any order, are each answered once, in the order their requester issued them, with the response they
would get alone; the ROM and the configuration stay. That a step never idles is the model's (log 7). -/
def Obligations.EveryCommandIsAnsweredAsIfAlone : Prop :=
  ∀ (s : State) (k : Nat), Inv s → s.built = true → s.AllAdmitted → Input.reset ∉ s.inputs → s.work ≤ k →
    ∃ t, runSteps k s = .next t ∧ t.Quiet ∧ t.rom = s.rom ∧ t.config = s.config ∧
      ∀ r, ∃ answers, (t.port r).received = (s.port r).received ++ answers ∧
        List.Forall₂ (fun q a => ∃ i, decode q = .ok i ∧ a = responseAlone s.rom s.config.stripMode i)
          (s.outstanding r) answers
end

