-- ==== Sys2Proof/Laws/Bits.lean ====
section
/-! SUPPORT. The stages that cut and join bits: lengths, and how they work along a concatenation. -/

namespace Sys2Proof.Machine

@[simp] theorem length_byteBits (b : Byte) : (byteBits b).length = 8 := rfl

@[simp] theorem bitString_nil : bitString [] = [] := rfl
@[simp] theorem bitString_cons (b : Byte) (bs : List Byte) : bitString (b :: bs) = byteBits b ++ bitString bs := rfl

@[simp] theorem bitString_append (x y : List Byte) : bitString (x ++ y) = bitString x ++ bitString y := by
  simp [bitString]

@[simp] theorem length_bitString (bytes : List Byte) : (bitString bytes).length = 8 * bytes.length := by
  induction bytes with
  | nil => rfl
  | cons b bs ih => simp [ih]; omega

@[simp] theorem rebuildBits_nil : rebuildBits [] = [] := rfl
@[simp] theorem rebuildBits_cons (v : Index) (l : List Index) : rebuildBits (v :: l) = indexBits v ++ rebuildBits l := rfl

@[simp] theorem length_rebuildBits (idx : List Index) : (rebuildBits idx).length = 3 * idx.length := by
  induction idx with
  | nil => rfl
  | cons v l ih => simp [ih, indexBits]; omega

theorem padCount_lt (L : Nat) : padCount L < 3 := Nat.mod_lt _ (by decide)

/-- `P = n mod 3` for a bit string of `n` bytes (41_encoder.md R53). -/
theorem padCount_bytes (n : Nat) : padCount (8 * n) = n % 3 := by unfold padCount; omega

theorem padded_length_mod (L : Nat) : (L + padCount L) % 3 = 0 := by unfold padCount; omega

@[simp] theorem groupIndex_toNat (a b c : Bool) : (groupIndex a b c).toNat = 4 * a.toNat + 2 * b.toNat + c.toNat := by
  cases a <;> cases b <;> cases c <;> rfl

@[simp] theorem groupIndex_indexBits (v : Index) : groupIndex (v.getLsbD 2) (v.getLsbD 1) (v.getLsbD 0) = v := by
  revert v; decide

theorem indexBits_groupIndex (a b c : Bool) : indexBits (groupIndex a b c) = [a, b, c] := by
  cases a <;> cases b <;> cases c <;> rfl

/-- The group extractor undoes the bit reconstruction (30_encoding.md R44, R45). -/
theorem extractGroups_rebuildBits_append (idx : List Index) (rest : Bits) :
    extractGroups (rebuildBits idx ++ rest) = idx ++ extractGroups rest := by
  induction idx with
  | nil => rfl
  | cons v l ih =>
    simp only [rebuildBits_cons, indexBits, List.cons_append, List.nil_append, extractGroups, groupIndex_indexBits, ih]

theorem rebuildBits_extractGroups : ∀ bits : Bits, bits.length % 3 = 0 → rebuildBits (extractGroups bits) = bits
  | [], _ => rfl
  | [_], h => by simp at h
  | [_, _], h => by simp at h
  | a :: b :: c :: rest, h => by
    have := rebuildBits_extractGroups rest (by simp at h; omega)
    simp [extractGroups, indexBits_groupIndex, this]

theorem length_extractGroups : ∀ bits : Bits, (extractGroups bits).length = bits.length / 3
  | [] => rfl
  | [_] => by simp [extractGroups]
  | [_, _] => by simp [extractGroups]
  | a :: b :: c :: rest => by
    simp [extractGroups, length_extractGroups rest]; omega

/-- Groups of a whole number of groups come first. -/
theorem extractGroups_append (x y : Bits) (h : x.length % 3 = 0) :
    extractGroups (x ++ y) = extractGroups x ++ extractGroups y := by
  conv_lhs => rw [← rebuildBits_extractGroups x h]
  exact extractGroups_rebuildBits_append _ _

theorem extractGroups_injective {x y : Bits} (hx : x.length % 3 = 0) (hy : y.length % 3 = 0)
    (h : extractGroups x = extractGroups y) : x = y := by
  rw [← rebuildBits_extractGroups x hx, h, rebuildBits_extractGroups y hy]

theorem length_packBytes : ∀ bits : Bits, (packBytes bits).length = bits.length / 8
  | [] => rfl
  | [_] | [_, _] | [_, _, _] | [_, _, _, _] | [_, _, _, _, _] | [_, _, _, _, _, _] | [_, _, _, _, _, _, _] => by
    simp [packBytes]
  | _ :: _ :: _ :: _ :: _ :: _ :: _ :: _ :: rest => by
    simp [packBytes, length_packBytes rest]; omega

theorem packByte_toNat (a b c d e f g h : Bool) :
    (packByte a b c d e f g h).toNat = 128 * a.toNat + 64 * b.toNat + 32 * c.toNat + 16 * d.toNat
      + 8 * e.toNat + 4 * f.toNat + 2 * g.toNat + h.toNat := by
  cases a <;> cases b <;> cases c <;> cases d <;> cases e <;> cases f <;> cases g <;> cases h <;> rfl

theorem packByte_byteBits (b : Byte) :
    packByte (b.getLsbD 7) (b.getLsbD 6) (b.getLsbD 5) (b.getLsbD 4) (b.getLsbD 3) (b.getLsbD 2) (b.getLsbD 1)
      (b.getLsbD 0) = b := by
  revert b; decide

/-- The byte packer undoes the bit string, bits left over being dropped (20_memory.md R31, 42_decoder.md R68). -/
theorem packBytes_bitString_append (bytes : List Byte) (rest : Bits) :
    packBytes (bitString bytes ++ rest) = bytes ++ packBytes rest := by
  induction bytes with
  | nil => rfl
  | cons b bs ih => simp only [bitString_cons, byteBits, List.cons_append, List.nil_append, packBytes, packByte_byteBits, ih]

/-- Fewer than 8 bits make no byte. -/
theorem packBytes_eq_nil {bits : Bits} (h : bits.length < 8) : packBytes bits = [] := by
  have := length_packBytes bits
  exact List.length_eq_zero_iff.1 (by omega)

/-- The bits of whole bytes come back (20_memory.md R29, R31). -/
theorem bitString_packBytes : ∀ bits : Bits, bits.length % 8 = 0 → bitString (packBytes bits) = bits
  | [], _ => rfl
  | [_], h | [_, _], h | [_, _, _], h | [_, _, _, _], h | [_, _, _, _, _], h | [_, _, _, _, _, _], h
  | [_, _, _, _, _, _, _], h => by simp at h
  | a :: b :: c :: d :: e :: f :: g :: i :: rest, h => by
    have := bitString_packBytes rest (by simp at h; omega)
    have hb : byteBits (packByte a b c d e f g i) = [a, b, c, d, e, f, g, i] := by
      cases a <;> cases b <;> cases c <;> cases d <;> cases e <;> cases f <;> cases g <;> cases i <;> rfl
    simp [packBytes, this, hb]

theorem packBytes_append (x y : Bits) (h : x.length % 8 = 0) : packBytes (x ++ y) = packBytes x ++ packBytes y := by
  conv_lhs => rw [← bitString_packBytes x h]
  exact packBytes_bitString_append _ _

theorem stripBits_eq_take (k : Nat) (l : Bits) : stripBits k l = l.take (l.length - k) := rfl

end Sys2Proof.Machine
end

