-- ==== Sys2Proof/Laws/Rom.lean ====
section
/-! SUPPORT. The Alphabet ROM: reading it, searching it, and what a built block guarantees of it. -/

namespace Sys2Proof.Machine

theorem distinct_iff : ∀ l : List CHAR, distinct l = true ↔ l.Nodup
  | [] => by simp [distinct]
  | c :: cs => by simp [distinct, distinct_iff cs]

theorem alphabetOk_iff {a : List CHAR} :
    alphabetOk a = true ↔ a.length = 8 ∧ (a.all isChar = true) ∧ a.Nodup := by
  simp only [alphabetOk, Bool.and_eq_true, decide_eq_true_eq, distinct_iff, and_assoc]

/-- The ROM of a built block holds distinct `CHAR`s (10_state.md R13, R14). -/
theorem State.built_iff {s : State} :
    s.built = true ↔ s.rom.toList = s.config.alphabet ∧ s.rom.toList.all isChar = true ∧ s.rom.toList.Nodup := by
  simp only [State.built, Bool.and_eq_true, decide_eq_true_eq, alphabetOk_iff]
  constructor
  · rintro ⟨⟨_, hc, hd⟩, hr⟩
    exact ⟨hr, hr ▸ hc, hr ▸ hd⟩
  · rintro ⟨hr, hc, hd⟩
    exact ⟨⟨by rw [← hr]; simp, hr ▸ hc, hr ▸ hd⟩, hr⟩

theorem romRead_eq_getElem (rom : Vector CHAR 8) (i : Index) :
    romRead rom i = rom.toList[i.toNat]'(by have := i.isLt; simp only [Vector.length_toList]; omega) := by
  simp [romRead]

theorem romRead_mem (rom : Vector CHAR 8) (i : Index) : romRead rom i ∈ rom.toList := by
  rw [romRead_eq_getElem]; exact List.getElem_mem _

theorem romRead_isChar {s : State} (h : s.built = true) (i : Index) : isChar (romRead s.rom i) = true :=
  List.all_eq_true.1 (State.built_iff.1 h).2.1 _ (romRead_mem s.rom i)

/-- The reverse lookup of a ROM with distinct entries (20_memory.md R27). -/
theorem romRead_injective {rom : Vector CHAR 8} (h : rom.toList.Nodup) {i j : Index}
    (hij : romRead rom i = romRead rom j) : i = j := by
  rw [romRead_eq_getElem, romRead_eq_getElem] at hij
  exact BitVec.eq_of_toNat_eq ((List.Nodup.getElem_inj_iff h).1 hij)

theorem romSearch_eq_none {rom : Vector CHAR 8} {c : CHAR} : romSearch rom c = none ↔ ∀ i : Index, romRead rom i ≠ c := by
  simp only [romSearch, Option.map_eq_none_iff, List.findIdx?_eq_none_iff, beq_eq_false_iff_ne]
  constructor
  · intro h i; exact h _ (romRead_mem rom i)
  · intro h x hx
    obtain ⟨n, hn, rfl⟩ := List.getElem_of_mem hx
    have hn' : n < 8 := by simpa using hn
    have := h (BitVec.ofNat 3 n)
    rw [romRead_eq_getElem] at this
    simpa [BitVec.toNat_ofNat, Nat.mod_eq_of_lt hn'] using this

theorem romRead_of_romSearch {rom : Vector CHAR 8} {c : CHAR} {i : Index} (h : romSearch rom c = some i) :
    romRead rom i = c := by
  simp only [romSearch, Option.map_eq_some_iff, List.findIdx?_eq_some_iff_getElem, beq_iff_eq] at h
  obtain ⟨n, ⟨hn, hc, -⟩, rfl⟩ := h
  have hn' : n < 8 := by simpa using hn
  rw [romRead_eq_getElem]
  simpa [BitVec.toNat_ofNat, Nat.mod_eq_of_lt hn'] using hc

theorem romSearch_romRead {rom : Vector CHAR 8} (h : rom.toList.Nodup) (i : Index) :
    romSearch rom (romRead rom i) = some i := by
  cases hs : romSearch rom (romRead rom i) with
  | none => exact absurd rfl (romSearch_eq_none.1 hs i)
  | some j => rw [romRead_injective h (romRead_of_romSearch hs)]

/-- Symbols of the ROM are looked up one by one. -/
theorem lookupSymbols_map {rom : Vector CHAR 8} (h : rom.toList.Nodup) (idx : List Index) :
    lookupSymbols rom (idx.map (romRead rom)) = .ok idx := by
  induction idx with
  | nil => rfl
  | cons v l ih => simp [lookupSymbols, romSearch_romRead h, ih]

/-- A lookup that succeeds gives the indices of the symbols. -/
theorem lookupSymbols_eq_ok {rom : Vector CHAR 8} {cs : List CHAR} {idx : List Index}
    (h : lookupSymbols rom cs = .ok idx) : cs = idx.map (romRead rom) := by
  induction cs generalizing idx with
  | nil => simp only [lookupSymbols] at h; injection h with h; subst h; rfl
  | cons c cs ih =>
    simp only [lookupSymbols] at h
    cases hs : romSearch rom c with
    | none => rw [hs] at h; cases h
    | some i =>
      rw [hs] at h
      cases hl : lookupSymbols rom cs with
      | error e => rw [hl] at h; cases h
      | ok l =>
        rw [hl] at h
        injection h with h
        subst h
        simp [ih hl, romRead_of_romSearch hs]

/-- A lookup that fails names a symbol of the input that is not in the ROM. -/
theorem lookupSymbols_eq_error {rom : Vector CHAR 8} {cs : List CHAR} {e : CodecError}
    (h : lookupSymbols rom cs = .error e) : ∃ c ∈ cs, e = .invalidSymbol c ∧ romSearch rom c = none := by
  induction cs with
  | nil => cases h
  | cons c cs ih =>
    simp only [lookupSymbols] at h
    cases hs : romSearch rom c with
    | none =>
      rw [hs] at h
      injection h with h
      exact ⟨c, List.mem_cons_self, h.symm, hs⟩
    | some i =>
      rw [hs] at h
      cases hl : lookupSymbols rom cs with
      | error e' =>
        rw [hl] at h
        injection h with h
        subst h
        obtain ⟨d, hd, hd'⟩ := ih hl
        exact ⟨d, List.mem_cons_of_mem _ hd, hd'⟩
      | ok l => rw [hl] at h; cases h

end Sys2Proof.Machine
end

