-- ==== Sys2Proof/Laws/Datapath.lean ====
section
/-! SUPPORT. The two datapaths as compositions of their stages: one equation for each, and how the suffix detector and the
byte packer see lists given by their ends. -/

namespace Sys2Proof.Machine

/-- ENCODE in terms of its byte stream: the groups of the padded bit string, mapped through the ROM, then the markers. -/
theorem encodeText_eq (rom : Vector CHAR 8) (t : List CHAR) :
    encodeText rom t =
      (extractGroups (bitString (utf8Encode t) ++ List.replicate ((utf8Encode t).length % 3) false)).map (romRead rom)
        ++ List.replicate ((utf8Encode t).length % 3) (marker rom) := by
  simp [encodeText, encodeBody, injectMarkers, mapRom, padBits, padCount_bytes, marker]

/-- DECODE of an input whose body is the symbols of known indices. -/
theorem decodeText_of_body {rom : Vector CHAR 8} (h : rom.toList.Nodup) (mode : StripMode) {input : List CHAR}
    {idx : List Index} (hb : bodyOf rom input = idx.map (romRead rom)) :
    decodeText rom mode input =
      match utf8Decode (rebuildBytes mode (detectPadding rom input) idx) with
      | some t => .ok t
      | none => .error .invalidUtf8 := by
  simp only [decodeText, hb, lookupSymbols_map h]
  cases utf8Decode (rebuildBytes mode (detectPadding rom input) idx) <;> rfl

theorem utf8Encode_append (x y : List CHAR) : utf8Encode (x ++ y) = utf8Encode x ++ utf8Encode y := by
  simp [utf8Encode]

/-! The suffix detector looks at the last two symbols only (42_decoder.md R64). -/

theorem detectPadding_nil (rom : Vector CHAR 8) : detectPadding rom [] = 0 := by simp [detectPadding]

theorem detectPadding_singleton (rom : Vector CHAR 8) (a : CHAR) :
    detectPadding rom [a] = if a = marker rom then 1 else 0 := by
  simp [detectPadding]

theorem detectPadding_append_pair (rom : Vector CHAR 8) (l : List CHAR) (a b : CHAR) :
    detectPadding rom (l ++ [a, b]) = if b = marker rom then (if a = marker rom then 2 else 1) else 0 := by
  have last : (l ++ [a, b])[(l ++ [a, b]).length - 1]? = some b := by
    rw [List.getElem?_append_right (by simp)]; simp
  have before : (l ++ [a, b])[(l ++ [a, b]).length - 2]? = some a := by
    rw [List.getElem?_append_right (by simp)]; simp
  have h1 : 2 ≤ (l ++ [a, b]).length := by simp
  have h2 : 1 ≤ (l ++ [a, b]).length := by simp
  simp only [detectPadding, last, before, h1, h2, true_and, Option.some.injEq]
  by_cases ha : a = marker rom <;> by_cases hb : b = marker rom <;> simp [ha, hb]

/-! Cutting a bit string: whole bytes and whole indices survive, the rest is dropped. -/

theorem packBytes_take_bitString (bytes : List Byte) (rest : Bits) (m : Nat) (h : m ≤ 8 * bytes.length) :
    packBytes ((bitString bytes ++ rest).take m) = bytes.take (m / 8) := by
  rw [List.take_append_of_le_length (by simpa using h)]
  have split : bitString bytes = bitString (bytes.take (m / 8)) ++ bitString (bytes.drop (m / 8)) := by
    rw [← bitString_append, List.take_append_drop]
  have hle : m / 8 ≤ bytes.length := by omega
  have cut : (bitString bytes).take m
      = bitString (bytes.take (m / 8)) ++ (bitString (bytes.drop (m / 8))).take (m % 8) := by
    rw [split, List.take_append]
    simp only [length_bitString, List.length_take, Nat.min_eq_left hle]
    rw [List.take_of_length_le (by simp; omega)]
    congr 2
    omega
  rw [cut, packBytes_bitString_append, packBytes_eq_nil, List.append_nil]
  simp; omega

theorem rebuildBits_take (idx : List Index) (k : Nat) : rebuildBits (idx.take k) = (rebuildBits idx).take (3 * k) := by
  induction idx generalizing k with
  | nil => simp
  | cons v l ih =>
    cases k with
    | zero => simp
    | succ k =>
      rw [List.take_succ_cons, rebuildBits_cons, rebuildBits_cons, ih, List.take_append]
      simp [indexBits, Nat.mul_add]

end Sys2Proof.Machine
end

