-- ==== Sys2Proof/Laws/State.lean ====
section
/-! SUPPORT. One lemma per field and update of the state: what each operation leaves alone, by definition. -/

namespace Sys2Proof.Machine

section SetPort
variable (s : State) (r : Nat) (p : Port)

@[simp] theorem State.setPort_rom : (s.setPort r p).rom = s.rom := rfl
@[simp] theorem State.setPort_config : (s.setPort r p).config = s.config := rfl
@[simp] theorem State.setPort_ports : (s.setPort r p).ports = portPut r p s.ports := rfl
@[simp] theorem State.setPort_inputs : (s.setPort r p).inputs = s.inputs := rfl
@[simp] theorem State.setPort_serving : (s.setPort r p).serving = s.serving := rfl
@[simp] theorem State.setPort_choices : (s.setPort r p).choices = s.choices := rfl

end SetPort

section Respond
variable (s : State) (q : Response)

@[simp] theorem State.respond_rom : (s.respond q).rom = s.rom := rfl
@[simp] theorem State.respond_config : (s.respond q).config = s.config := rfl
@[simp] theorem State.respond_inputs : (s.respond q).inputs = s.inputs := rfl
@[simp] theorem State.respond_serving : (s.respond q).serving = s.serving := rfl
@[simp] theorem State.respond_choices : (s.respond q).choices = s.choices := rfl

end Respond

section Accept
variable (s : State) (r : Nat) (q : Request)

@[simp] theorem State.accept_rom : (s.accept r q).rom = s.rom := rfl
@[simp] theorem State.accept_config : (s.accept r q).config = s.config := rfl
@[simp] theorem State.accept_inputs : (s.accept r q).inputs = s.inputs := rfl
@[simp] theorem State.accept_serving : (s.accept r q).serving = s.serving := rfl
@[simp] theorem State.accept_choices : (s.accept r q).choices = s.choices := rfl

end Accept

section ApplyReset
variable (s : State)

@[simp] theorem State.applyReset_rom : s.applyReset.rom = s.rom := rfl
@[simp] theorem State.applyReset_config : s.applyReset.config = s.config := rfl
@[simp] theorem State.applyReset_inputs : s.applyReset.inputs = s.inputs := rfl
@[simp] theorem State.applyReset_serving : s.applyReset.serving = s.serving := rfl
@[simp] theorem State.applyReset_choices : s.applyReset.choices = s.choices := rfl

end ApplyReset

/-! What reads only the ports, or only the ROM and the configuration, does not see the other fields. -/

section Views
variable {s t : State}

theorem State.port_congr (h : t.ports = s.ports) (r : Nat) : t.port r = s.port r := congrArg (portGet r) h

theorem State.inFlight_congr (h : t.ports = s.ports) : t.inFlight = s.inFlight := by
  unfold State.inFlight; rw [h]

theorem State.built_congr (hr : t.rom = s.rom) (hc : t.config = s.config) : t.built = s.built := by
  unfold State.built; rw [hr, hc]

theorem State.overLimit_congr (hc : t.config = s.config) (l : List CHAR) : t.overLimit l = s.overLimit l := by
  unfold State.overLimit; rw [hc]

/-- When a command executes depends on the ROM, the configuration and the command only. -/
theorem State.runs_congr (hr : t.rom = s.rom) (hc : t.config = s.config) {i : Instr} : t.Runs i ↔ s.Runs i :=
  ⟨fun h => ⟨State.built_congr hr hc ▸ h.built, State.overLimit_congr hc _ ▸ h.within, h.chars⟩,
    fun h => ⟨State.built_congr hr hc ▸ h.built, State.overLimit_congr hc _ ▸ h.within, h.chars⟩⟩

@[simp] theorem State.built_setPort (s : State) (r : Nat) (p : Port) : (s.setPort r p).built = s.built := rfl
@[simp] theorem State.built_respond (s : State) (q : Response) : (s.respond q).built = s.built := rfl
@[simp] theorem State.overLimit_setPort (s : State) (r : Nat) (p : Port) (l : List CHAR) :
    (s.setPort r p).overLimit l = s.overLimit l := rfl
@[simp] theorem State.overLimit_respond (s : State) (q : Response) (l : List CHAR) :
    (s.respond q).overLimit l = s.overLimit l := rfl

end Views

end Sys2Proof.Machine
end

