-- ==== Sys2Proof/Laws/Ports.lean ====
section
/-! SUPPORT. The laws of the list of requesters: read after write, other requesters untouched, the rising form kept. -/

namespace Sys2Proof.Machine

/-- Read after write. -/
@[simp] theorem portGet_portPut_self (r : Nat) (p : Port) (l : List (Nat × Port)) :
    portGet r (portPut r p l) = p := by
  induction l with
  | nil => simp [portPut, portGet]
  | cons e rest ih =>
    obtain ⟨k, q⟩ := e
    simp only [portPut]
    split
    · simp [portGet]
    · split
      · simp [portGet]
      · simp [portGet, *]

/-- A write leaves every other requester alone. -/
theorem portGet_portPut_of_ne {r k : Nat} (h : k ≠ r) (p : Port) (l : List (Nat × Port)) :
    portGet k (portPut r p l) = portGet k l := by
  induction l with
  | nil => simp [portPut, portGet, h]
  | cons e rest ih =>
    obtain ⟨j, q⟩ := e
    simp only [portPut]
    split
    · simp only [portGet, h, if_false]
      split_ifs <;> first | rfl | omega
    · split
      · simp only [portGet]
        split_ifs <;> first | rfl | omega
      · simp only [portGet, ih]

@[simp] theorem State.port_setPort_self (s : State) (r : Nat) (p : Port) : (s.setPort r p).port r = p :=
  portGet_portPut_self r p s.ports

theorem State.port_setPort_of_ne (s : State) {r k : Nat} (h : k ≠ r) (p : Port) :
    (s.setPort r p).port k = s.port k :=
  portGet_portPut_of_ne h p s.ports

/-- Writes to two requesters commute. -/
theorem portPut_comm {r k : Nat} (h : r ≠ k) (p q : Port) (l : List (Nat × Port)) :
    portPut r p (portPut k q l) = portPut k q (portPut r p l) := by
  induction l with
  | nil =>
    simp only [portPut]
    split_ifs <;> first | rfl | omega
  | cons e rest ih =>
    obtain ⟨j, o⟩ := e
    simp only [portPut]
    split_ifs <;> simp only [portPut, ih] <;> split_ifs <;> first | rfl | omega

/-- An entry after a write is the written one or an old one of another requester, in a rising list. -/
theorem mem_portPut {r : Nat} {p : Port} {l : List (Nat × Port)} (hl : (l.map Prod.fst).Pairwise (· < ·))
    {e : Nat × Port} (he : e ∈ portPut r p l) : e = (r, p) ∨ (e ∈ l ∧ e.1 ≠ r) := by
  induction l with
  | nil => simpa [portPut] using he
  | cons f rest ih =>
    obtain ⟨k, q⟩ := f
    simp only [List.map_cons, List.pairwise_cons, List.mem_map, forall_exists_index, and_imp] at hl
    obtain ⟨hk, hrest⟩ := hl
    have later : ∀ e ∈ rest, k < e.1 := fun e he => hk e.1 e he rfl
    simp only [portPut] at he
    split at he
    · rcases List.mem_cons.1 he with rfl | he
      · exact .inl rfl
      · refine .inr ⟨he, ?_⟩
        rcases List.mem_cons.1 he with rfl | he
        · dsimp only; omega
        · have := later e he; omega
    · split at he
      · rcases List.mem_cons.1 he with rfl | he
        · exact .inl rfl
        · have := later e he
          exact .inr ⟨List.mem_cons_of_mem _ he, by omega⟩
      · rcases List.mem_cons.1 he with rfl | he
        · exact .inr ⟨List.mem_cons_self, by dsimp only; omega⟩
        · rcases ih hrest he with h | ⟨h, h'⟩
          · exact .inl h
          · exact .inr ⟨List.mem_cons_of_mem _ h, h'⟩

/-- The requesters listed after a write: the old ones and the written one. -/
theorem mem_keys_portPut {r : Nat} {p : Port} {l : List (Nat × Port)} {k : Nat}
    (hk : k ∈ (portPut r p l).map Prod.fst) : k = r ∨ k ∈ l.map Prod.fst := by
  induction l with
  | nil => simpa [portPut] using hk
  | cons e rest ih =>
    obtain ⟨j, q⟩ := e
    simp only [portPut] at hk
    split at hk
    · simpa using hk
    · split at hk
      · simp only [List.map_cons, List.mem_cons] at hk ⊢
        rcases hk with h | h
        · exact .inl h
        · exact .inr (.inr h)
      · simp only [List.map_cons, List.mem_cons] at hk ⊢
        rcases hk with h | h
        · exact .inr (.inl h)
        · rcases ih h with h | h
          · exact .inl h
          · exact .inr (.inr h)

/-- A write keeps the rising form. -/
theorem portPut_rising (r : Nat) (p : Port) {l : List (Nat × Port)} (hl : (l.map Prod.fst).Pairwise (· < ·)) :
    ((portPut r p l).map Prod.fst).Pairwise (· < ·) := by
  induction l with
  | nil => simp [portPut]
  | cons e rest ih =>
    obtain ⟨k, q⟩ := e
    have hl' := hl
    simp only [List.map_cons, List.pairwise_cons] at hl
    simp only [portPut]
    split
    · simp only [List.map_cons, List.pairwise_cons]
      refine ⟨fun a ha => ?_, hl⟩
      rcases List.mem_cons.1 ha with rfl | ha
      · assumption
      · have := hl.1 a ha; omega
    · split
      · subst_vars
        simpa using hl
      · simp only [List.map_cons, List.pairwise_cons]
        refine ⟨fun a ha => ?_, ih hl.2⟩
        rcases mem_keys_portPut ha with h | h
        · omega
        · exact hl.1 a h

/-- In a rising list a listed requester reads as its entry. -/
theorem portGet_of_mem {l : List (Nat × Port)} (hl : (l.map Prod.fst).Pairwise (· < ·)) {r : Nat} {p : Port}
    (h : (r, p) ∈ l) : portGet r l = p := by
  induction l with
  | nil => simp at h
  | cons e rest ih =>
    obtain ⟨k, q⟩ := e
    simp only [List.map_cons, List.pairwise_cons, List.mem_map, forall_exists_index, and_imp] at hl
    simp only [portGet]
    rcases List.mem_cons.1 h with h | h
    · simp only [Prod.mk.injEq] at h
      simp [h.1, h.2]
    · have := hl.1 r (r, p) h rfl
      rw [if_neg (by omega), if_neg (by omega)]
      exact ih hl.2 h

/-- A requester reads as fresh or as an entry of its own. -/
theorem portGet_cases (r : Nat) (l : List (Nat × Port)) : portGet r l = Port.fresh ∨ (r, portGet r l) ∈ l := by
  induction l with
  | nil => exact .inl rfl
  | cons e rest ih =>
    obtain ⟨k, q⟩ := e
    simp only [portGet]
    split
    · exact .inl rfl
    · split
      · subst_vars; exact .inr List.mem_cons_self
      · rcases ih with h | h
        · exact .inl h
        · exact .inr (List.mem_cons_of_mem _ h)

/-- A requester that no entry names reads as fresh. -/
theorem portGet_of_not_mem {r : Nat} {l : List (Nat × Port)} (h : ∀ e ∈ l, e.1 ≠ r) : portGet r l = Port.fresh := by
  rcases portGet_cases r l with h' | h'
  · exact h'
  · exact absurd rfl (h _ h')

/-- What a reset leaves of the list of requesters. -/
theorem mem_applyReset_ports {s : State} {e : Nat × Port} :
    e ∈ s.applyReset.ports ↔ (∃ p, (e.1, p) ∈ s.ports ∧ e.2 = portReset p) ∧ e.2 ≠ Port.fresh := by
  obtain ⟨r, p⟩ := e
  simp only [State.applyReset, List.mem_filter, List.mem_map, decide_eq_true_eq, Prod.exists, Prod.mk.injEq]
  constructor
  · rintro ⟨⟨k, q, hm, rfl, rfl⟩, hf⟩
    exact ⟨⟨q, hm, rfl⟩, hf⟩
  · rintro ⟨⟨q, hm, rfl⟩, hf⟩
    exact ⟨⟨r, q, hm, rfl, rfl⟩, hf⟩

/-- A reset keeps the rising form. -/
theorem applyReset_rising {s : State} (h : (s.ports.map Prod.fst).Pairwise (· < ·)) :
    (s.applyReset.ports.map Prod.fst).Pairwise (· < ·) := by
  have h1 : ((s.ports.map fun e => (e.1, portReset e.2)).map Prod.fst).Pairwise (· < ·) := by
    simpa [List.map_map, Function.comp_def] using h
  exact h1.sublist (List.filter_sublist.map _)

/-- A requester after a reset, in a rising list: IDLE, nothing to read, what was delivered kept. -/
theorem port_applyReset {s : State} (h : (s.ports.map Prod.fst).Pairwise (· < ·)) (r : Nat) :
    s.applyReset.port r = portReset (s.port r) := by
  by_cases hf : portReset (s.port r) = Port.fresh
  · rw [hf]
    refine portGet_of_not_mem fun e he hr => ?_
    obtain ⟨⟨p, hp, hep⟩, hne⟩ := mem_applyReset_ports.1 he
    subst hr
    rw [State.port, portGet_of_mem h hp, ← hep] at hf
    exact hne hf
  · refine portGet_of_mem (applyReset_rising h) (mem_applyReset_ports.2 ⟨?_, hf⟩)
    rcases portGet_cases r s.ports with h' | h'
    · exact absurd (by rw [State.port, h']; rfl) hf
    · exact ⟨_, h', rfl⟩

/-- The invariant reads the ports only. -/
theorem Inv.congr {s t : State} (h : Inv s) (hp : t.ports = s.ports) : Inv t := by
  constructor <;> rw [hp]
  exacts [h.rising, h.listed, h.no_stale, h.rsp_last, h.legal]

/-- Nothing is in flight after a reset. -/
@[simp] theorem inFlight_applyReset (s : State) : s.applyReset.inFlight = [] := by
  refine List.filterMap_eq_nil_iff.2 fun e he => ?_
  obtain ⟨⟨p, _, hp⟩, _⟩ := mem_applyReset_ports.1 he
  rw [hp]; rfl

/-- A requester has a command in flight exactly when its entry says so, in a rising list. -/
theorem mem_inFlight {s : State} (h : (s.ports.map Prod.fst).Pairwise (· < ·)) {r : Nat} {q : Request} :
    (r, q) ∈ s.inFlight ↔ (s.port r).txn = .busy q := by
  simp only [State.inFlight, List.mem_filterMap, Option.map_eq_some_iff, Prod.mk.injEq, Prod.exists]
  constructor
  · rintro ⟨k, p, hm, q', hq, rfl, rfl⟩
    rw [State.port, portGet_of_mem h hm]
    cases hp : p.txn with
    | idle => rw [hp] at hq; simp [txnRequest] at hq
    | busy q'' => rw [hp] at hq; simp [txnRequest] at hq; rw [hq]
  · intro hb
    rcases portGet_cases r s.ports with h' | h'
    · rw [State.port, h'] at hb; simp [Port.fresh] at hb
    · exact ⟨r, s.port r, h', q, by rw [hb]; rfl, rfl, rfl⟩

/-- How many commands a transaction state holds in flight. -/
def busyCount : Txn → Nat
  | .idle => 0
  | .busy _ => 1

/-- How a write to one requester changes the number of commands in flight. -/
theorem length_inFlight_setPort (s : State) (r : Nat) (p : Port) :
    (s.setPort r p).inFlight.length + busyCount (s.port r).txn = s.inFlight.length + busyCount p.txn := by
  have cons : ∀ (e : Nat × Port) (l : List (Nat × Port)),
      ((e :: l).filterMap fun e => (txnRequest e.2.txn).map fun q => (e.1, q)).length
        = busyCount e.2.txn + (l.filterMap fun e => (txnRequest e.2.txn).map fun q => (e.1, q)).length := by
    rintro ⟨k, q⟩ l
    cases h : q.txn <;> simp [h, txnRequest, busyCount]; omega
  simp only [State.inFlight, State.setPort_ports, State.port]
  induction s.ports with
  | nil => simp only [portPut, portGet, cons]; simp [busyCount, Port.fresh]
  | cons e rest ih =>
    obtain ⟨k, q⟩ := e
    simp only [portPut, portGet]
    split_ifs <;> simp only [cons] <;> simp only [busyCount, Port.fresh] <;> (try simp only [busyCount] at ih) <;> omega

end Sys2Proof.Machine
end

