-- ==== Sys2Proof/Laws/Ops.lean ====
section
/-! SUPPORT. One lemma per shared operation that says what it can do, and the one lemma of `exec` that the others cite. -/

namespace Sys2Proof.Machine

theorem firstNonChar_eq_none {cs : List CHAR} : firstNonChar cs = none ↔ cs.all isChar = true := by
  simp [firstNonChar, List.find?_eq_none]

/-- The decoder's answer is a command with the request's operand, all of it `CHAR`s. -/
theorem decode_eq_ok {q : Request} {i : Instr} (h : decode q = .ok i) : encode i = q ∧ q.input.all isChar = true := by
  obtain ⟨op, input⟩ := q
  unfold decode at h
  cases hn : firstNonChar input with
  | some c => rw [hn] at h; cases h
  | none =>
    rw [hn] at h
    refine ⟨?_, firstNonChar_eq_none.1 hn⟩
    have hop : op = 0#1 ∨ op = 1#1 := (by decide : ∀ b : BitVec 1, b = 0#1 ∨ b = 1#1) op
    rcases hop with rfl | rfl <;> · simp at h; subst h; rfl

theorem instr_wellFormed_eq (i : Instr) : i.wellFormed = i.input.all isChar := by cases i <;> rfl

theorem encode_input (i : Instr) : (encode i).input = i.input := by cases i <;> rfl

theorem State.runs_iff {s : State} {i : Instr} : s.Runs i ↔ s.refusalOf i.input = none := by
  have hw : i.wellFormed = i.input.all isChar := instr_wellFormed_eq i
  constructor
  · rintro ⟨hb, hl, hc⟩
    rw [hw] at hc
    simp [State.refusalOf, hb, hl, firstNonChar_eq_none.2 hc]
  · intro h
    simp only [State.refusalOf] at h
    split at h
    · cases h
    · split at h
      · cases h
      · split at h
        · cases h
        · rename_i h1 h2 _ h3
          refine ⟨by simpa using h2, by simpa using h1, ?_⟩
          rw [hw]
          exact firstNonChar_eq_none.1 h3

/-- A command that is not refused takes its effect; a refused one stops with the reason. -/
theorem State.runCommand_eq {s : State} {l : List CHAR} {f : State → State} :
    (s.refusalOf l = none ∧ s.runCommand l f = .next (f s)) ∨
      ∃ r, s.refusalOf l = some r ∧ s.runCommand l f = .refused r := by
  unfold State.runCommand
  cases h : s.refusalOf l with
  | none => exact .inl ⟨rfl, rfl⟩
  | some r => exact .inr ⟨r, rfl, rfl⟩

/-- What a command does when it executes: it delivers the response it gets when issued alone. -/
theorem exec_of_runs {i : Instr} {s : State} (h : s.Runs i) :
    exec i s = .next (s.respond (responseAlone s.rom s.config.stripMode i)) := by
  have h' := State.runs_iff.1 h
  cases i with
  | encode t => simp only [Instr.input] at h'; simp [exec, execEncode, State.runCommand, h', State.returnOk, responseAlone]
  | decode t =>
    simp only [Instr.input] at h'
    simp only [exec, execDecode, State.runCommand, h', responseAlone]
    cases decodeText s.rom s.config.stripMode t <;> rfl

/-- Everything `exec` can do: execute, or stop with the reason. -/
theorem exec_cases (i : Instr) (s : State) :
    (s.Runs i ∧ exec i s = .next (s.respond (responseAlone s.rom s.config.stripMode i))) ∨
      ∃ r, s.refusalOf i.input = some r ∧ exec i s = .refused r := by
  cases h : s.refusalOf i.input with
  | none => exact .inl ⟨State.runs_iff.2 h, exec_of_runs (State.runs_iff.2 h)⟩
  | some r =>
    refine .inr ⟨r, rfl, ?_⟩
    cases i <;> simp only [Instr.input] at h <;> simp [exec, execEncode, execDecode, State.runCommand, h]

theorem exec_eq_next {i : Instr} {s u : State} (h : exec i s = .next u) :
    s.Runs i ∧ u = s.respond (responseAlone s.rom s.config.stripMode i) := by
  rcases exec_cases i s with ⟨hr, he⟩ | ⟨r, _, he⟩
  · rw [he] at h; injection h with h; exact ⟨hr, h.symm⟩
  · rw [he] at h; cases h

/-- The port of the requester that is answered. -/
@[simp] theorem State.port_respond_self (s : State) (q : Response) :
    (s.respond q).port s.serving = { txn := .idle, rsp := some q, received := (s.port s.serving).received ++ [q] } :=
  s.port_setPort_self _ _

theorem State.port_respond_of_ne (s : State) (q : Response) {r : Nat} (h : r ≠ s.serving) :
    (s.respond q).port r = s.port r :=
  s.port_setPort_of_ne h _

/-- The port of the requester whose request is accepted. -/
@[simp] theorem State.port_accept_self (s : State) (r : Nat) (q : Request) :
    (s.accept r q).port r = { txn := .busy q, rsp := none, received := (s.port r).received } :=
  s.port_setPort_self _ _

theorem State.port_accept_of_ne (s : State) (q : Request) {r k : Nat} (h : k ≠ r) : (s.accept r q).port k = s.port k :=
  s.port_setPort_of_ne h _

/-- A request the model admits is a command that executes. -/
theorem State.admits_iff {s : State} {q : Request} :
    s.admits q = true ↔ ∃ i, decode q = .ok i ∧ s.Runs i := by
  constructor
  · intro h
    have h0 : s.refusalOf q.input = none := by simpa [State.admits] using h
    have hc : firstNonChar q.input = none := by
      simp only [State.refusalOf] at h0
      split at h0
      · cases h0
      · split at h0
        · cases h0
        · split at h0
          · cases h0
          · assumption
    cases hd : decode q with
    | error e =>
      simp only [decode, hc] at hd
      split at hd <;> cases hd
    | ok i =>
      refine ⟨i, rfl, State.runs_iff.2 ?_⟩
      rw [← encode_input, (decode_eq_ok hd).1]
      exact h0
  · rintro ⟨i, hd, hr⟩
    have := State.runs_iff.1 hr
    rw [← encode_input, (decode_eq_ok hd).1] at this
    simp [State.admits, this]

theorem State.admits_congr {s t : State} (hr : t.rom = s.rom) (hc : t.config = s.config) (q : Request) :
    t.admits q = s.admits q := by
  rw [Bool.eq_iff_iff, State.admits_iff, State.admits_iff]
  simp only [State.runs_congr hr hc]

/-- Completing the command in flight is running its meaning for that requester. -/
theorem serve_of_busy {r : Nat} {s : State} {q : Request} {i : Instr} (hb : (s.port r).txn = .busy q)
    (hd : decode q = .ok i) : serve r s = exec i { s with serving := r } := by
  simp only [serve, hb, hd]

/-- A command in flight that is too long is refused for its length, whatever else its operand holds. -/
theorem serve_of_overLimit {r : Nat} {s : State} {q : Request} (hb : (s.port r).txn = .busy q)
    (hl : s.overLimit q.input = true) : serve r s = .refused (.overLong r) := by
  have hq : ({ s with serving := r } : State).refusalOf q.input = some (.overLong r) := by
    have : ({ s with serving := r } : State).overLimit q.input = true := hl
    simp [State.refusalOf, this]
  cases hd : decode q with
  | error e => obtain ⟨c⟩ := e; simp only [serve, hb, hd, hq, Option.getD_some]
  | ok i =>
    rw [serve_of_busy hb hd]
    rcases exec_cases i { s with serving := r } with ⟨hr, -⟩ | ⟨x, hx, he⟩
    · have hi : s.overLimit i.input = false := hr.within
      rw [← encode_input, (decode_eq_ok hd).1, hl] at hi
      cases hi
    · rw [← encode_input, (decode_eq_ok hd).1, hq] at hx
      injection hx with hx
      rw [he, ← hx]

/-- Completing a command: nothing when none is in flight, a refusal, or the response it gets alone. -/
theorem serve_eq_next {r : Nat} {s t : State} (h : serve r s = .next t) :
    ((s.port r).txn = .idle ∧ t = s) ∨
      ∃ q i, (s.port r).txn = .busy q ∧ decode q = .ok i ∧ s.Runs i ∧
        t = ({ s with serving := r } : State).respond (responseAlone s.rom s.config.stripMode i) := by
  unfold serve at h
  cases hp : (s.port r).txn with
  | idle => rw [hp] at h; injection h with h; exact .inl ⟨rfl, h.symm⟩
  | busy q =>
    rw [hp] at h
    dsimp only at h
    cases hd : decode q with
    | error e => obtain ⟨c⟩ := e; rw [hd] at h; cases h
    | ok i =>
      rw [hd] at h
      obtain ⟨hr, ht⟩ := exec_eq_next h
      exact .inr ⟨q, i, rfl, hd, ⟨hr.built, hr.within, hr.chars⟩, ht⟩

end Sys2Proof.Machine
end

