-- ==== Sys2Proof/Laws/PerInstr.lean ====
section
/-! SUPPORT. Facts about every command as syntax, one lemma per constructor of `Instr`. -/

namespace Sys2Proof.Laws.RequestCarriesCommand

/-- The request of a command carries its operand unchanged (30_encoding.md R41, R49), and its one bit tells which command
it is. -/
def Statement (i : Instr) : Prop :=
  (Sys2Proof.encode i).input = i.input ∧ ((Sys2Proof.encode i).op = 0#1 ↔ i = Instr.encode i.input)

theorem encode (input : List CHAR) : Statement (Instr.encode input) := ⟨rfl, by simp [Sys2Proof.encode, Instr.input]⟩

theorem decode (input : List CHAR) : Statement (Instr.decode input) := ⟨rfl, by simp [Sys2Proof.encode]⟩

end Sys2Proof.Laws.RequestCarriesCommand
end

