-- ==== Sys2Proof/Laws/Step.lean ====
section
/-! SUPPORT. Everything one step can do (its inversion lemma), from which the invariants follow. -/

namespace Sys2Proof.Machine

/-- The chosen event is a possible one, and only the counter of the free choice may change. -/
theorem State.choose_mem (s : State) (a : Action) (rest : List Action) :
    (s.choose a rest).1 ∈ a :: rest ∧ ∃ n, (s.choose a rest).2 = { s with choices := n } := by
  cases rest with
  | nil => exact ⟨List.mem_cons_self, s.choices, rfl⟩
  | cons b rest =>
    refine ⟨?_, s.choices + 1, rfl⟩
    have hlt : Config.freeChoice s.choices % ((b :: rest).length + 1) < (a :: b :: rest).length :=
      Nat.mod_lt _ (Nat.succ_pos _)
    simp only [State.choose]
    rw [List.getD_eq_getElem _ _ hlt]
    exact List.getElem_mem hlt

theorem State.mem_inputActions {s : State} {a : Action} (h : a ∈ s.inputActions) :
    (a = .reset ∧ s.inputs = .reset :: s.inputs.tail) ∨
      ∃ r q, a = .accept r q ∧ (s.port r).txn = .idle ∧ s.inputs = .request r q :: s.inputs.tail := by
  unfold State.inputActions at h
  split at h
  · simp at h
  · rename_i he
    exact .inl ⟨by simpa using h, by rw [he]; rfl⟩
  · rename_i r q rest he
    split at h
    · rename_i hi
      exact .inr ⟨r, q, by simpa using h, by simpa [State.isIdle] using hi, by rw [he]; rfl⟩
    · simp at h

theorem State.mem_completions {s : State} {a : Action} (h : a ∈ s.completions) :
    ∃ r q, a = .complete r ∧ (r, q) ∈ s.inFlight ∧ s.admits q = true := by
  simp only [State.completions, List.mem_filterMap] at h
  obtain ⟨⟨r, q⟩, hm, ha⟩ := h
  split at ha
  · rename_i hq
    injection ha with ha
    exact ⟨r, q, ha.symm, hm, hq⟩
  · cases ha

/-- A block that is not built as R91 asks does nothing at all. -/
theorem step_of_not_built {s : State} (h : s.built = false) : step s = .refused .badAlphabet := by
  simp [step, nextEvent, h]

theorem built_of_step {s t : State} (h : step s = .next t) : s.built = true := by
  cases hb : s.built with
  | true => rfl
  | false => rw [step_of_not_built hb] at h; cases h

/-- A built block performs the chosen event. -/
theorem step_of_candidates {s : State} (hb : s.built = true) {a : Action} {rest : List Action}
    (hc : s.candidates = a :: rest) : step s = perform (s.choose a rest).1 (s.choose a rest).2 := by
  simp [step, nextEvent, hb, hc]

/-- A built block with nothing possible and nothing in flight stays as it is. -/
theorem step_of_idle {s : State} (hb : s.built = true) (hc : s.candidates = []) (hf : s.inFlight = []) :
    step s = .next s := by
  simp [step, nextEvent, hb, hc, hf]

/-- A built block with nothing possible stops with the refusal of the first command in flight. -/
theorem step_of_refused {s : State} (hb : s.built = true) (hc : s.candidates = []) {e : Nat × Request}
    {rest : List (Nat × Request)} (hf : s.inFlight = e :: rest) : step s = serve e.1 s := by
  simp [step, nextEvent, hb, hc, hf]

/-- Everything one step can do, when it answers a next state: nothing, because nothing is presented and nothing in flight;
take a reset; accept a request from an IDLE requester; or complete a command in flight with the response it gets alone. -/
theorem step_eq_next {s t : State} (h : step s = .next t) :
    (s.candidates = [] ∧ s.inFlight = [] ∧ t = s) ∨
    (∃ n, s.inputs = .reset :: s.inputs.tail ∧
      t = ({ s with inputs := s.inputs.tail, choices := n } : State).applyReset) ∨
    (∃ n r q, (s.port r).txn = .idle ∧ s.inputs = .request r q :: s.inputs.tail ∧
      t = ({ s with inputs := s.inputs.tail, choices := n } : State).accept r q) ∨
    (∃ n r, t = { s with choices := n } ∧ (s.port r).txn = .idle) ∨
    (∃ n r q i, (s.port r).txn = .busy q ∧ decode q = .ok i ∧ s.Runs i ∧
      t = ({ s with serving := r, choices := n } : State).respond (responseAlone s.rom s.config.stripMode i)) := by
  have hbuilt := built_of_step h
  cases hc : s.candidates with
  | cons a rest =>
    rw [step_of_candidates hbuilt hc] at h
    obtain ⟨hmem, n, hn⟩ := s.choose_mem a rest
    rw [hn] at h
    rw [← hc, State.candidates, List.mem_append] at hmem
    rcases hmem with hm | hm
    · rcases State.mem_inputActions hm with ⟨ha, hi⟩ | ⟨r, q, ha, hidle, hi⟩
      · rw [ha] at h; injection h with h
        exact .inr (.inl ⟨n, hi, h.symm⟩)
      · rw [ha] at h; injection h with h
        exact .inr (.inr (.inl ⟨n, r, q, hidle, hi, h.symm⟩))
    · obtain ⟨r, q, ha, -, -⟩ := State.mem_completions hm
      rw [ha] at h
      rcases serve_eq_next h with ⟨hidle, ht⟩ | ⟨q', i, hb, hd, hr, ht⟩
      · exact .inr (.inr (.inr (.inl ⟨n, r, ht, hidle⟩)))
      · exact .inr (.inr (.inr (.inr ⟨n, r, q', i, hb, hd, ⟨hr.built, hr.within, hr.chars⟩, ht⟩)))
  | nil =>
    cases hf : s.inFlight with
    | nil =>
      rw [step_of_idle hbuilt hc hf] at h
      injection h with h
      exact .inl ⟨rfl, rfl, h.symm⟩
    | cons e rest =>
      obtain ⟨r, q⟩ := e
      rw [step_of_refused hbuilt hc hf] at h
      rcases serve_eq_next h with ⟨hidle, ht⟩ | ⟨q', i, hb, hd, hr, ht⟩
      · exact .inr (.inr (.inr (.inl ⟨s.choices, r, ht, hidle⟩)))
      · exact .inr (.inr (.inr (.inr ⟨s.choices, r, q', i, hb, hd, hr, ht⟩)))

theorem run_of_next {M : Host.Core} {s t : M.State} (h : M.step s = .next t) (k : Nat) :
    M.run (k + 1) s = M.run k t := by
  simp only [Host.Core.run, h]

/-- A run goes on from the next state. -/
theorem runSteps_of_next {s t : State} (h : step s = .next t) (k : Nat) : runSteps (k + 1) s = runSteps k t :=
  run_of_next (M := Sys2Proof.core) h k

end Sys2Proof.Machine
end

