-- ==== Sys2Proof/Laws/Utf8.lean ====
section
/-! SUPPORT. The two UTF-8 stages: their tables as numbers, and that one undoes the other character by character. -/

namespace Sys2Proof.Machine

/-- The fields of a code point as numbers (00_scope.md R8). -/
theorem charField_toNat (c : CHAR) (hi lo : Nat) (h : hi - lo < 8) :
    (charField c hi lo).toNat = c.toNat / 2 ^ lo % 2 ^ (hi - lo + 1) := by
  have : 2 ^ (hi - lo + 1) ≤ 2 ^ 8 := Nat.pow_le_pow_right (by decide) (by omega)
  simp only [charField, BitVec.toNat_setWidth, BitVec.extractLsb'_toNat, Nat.shiftRight_eq_div_pow]
  exact Nat.mod_eq_of_lt (lt_of_lt_of_le (Nat.mod_lt _ (by positivity)) this)

/-- The serialiser's bytes as numbers, row by row (41_encoder.md R51). -/
theorem utf8EncodeChar_toNat (c : CHAR) (hc : isChar c = true) :
    (utf8EncodeChar c).map BitVec.toNat =
      (let n := c.toNat
       if n ≤ 0x7F then [n]
       else if n ≤ 0x7FF then [0xC0 + n / 2 ^ 6, 0x80 + n % 2 ^ 6]
       else if n ≤ 0xFFFF then [0xE0 + n / 2 ^ 12, 0x80 + n / 2 ^ 6 % 2 ^ 6, 0x80 + n % 2 ^ 6]
       else [0xF0 + n / 2 ^ 18, 0x80 + n / 2 ^ 12 % 2 ^ 6, 0x80 + n / 2 ^ 6 % 2 ^ 6, 0x80 + n % 2 ^ 6]) := by
  have hlt : c.toNat ≤ 0x10FFFF := by
    simp [isChar] at hc; omega
  simp only [utf8EncodeChar]
  split_ifs <;> simp [charField_toNat, BitVec.toNat_add] <;> omega

/-- The summands of the value column as numbers (42_decoder.md R69). -/
theorem bitsAt_toNat (b : Byte) (m k : Nat) (hm : m ≤ 7) (hk : k + m ≤ 21) :
    (bitsAt b (BitVec.ofNat 8 (2 ^ m - 1)) k).toNat = b.toNat % 2 ^ m * 2 ^ k := by
  have h1 : 2 ^ m ≤ 2 ^ 7 := Nat.pow_le_pow_right (by decide) hm
  have h2 : b.toNat % 2 ^ m < 2 ^ m := Nat.mod_lt _ (by positivity)
  have h3 : 2 ^ m * 2 ^ k ≤ 2 ^ 21 := by rw [← pow_add]; exact Nat.pow_le_pow_right (by decide) (by omega)
  have h4 : b.toNat % 2 ^ m * 2 ^ k < 2 ^ 21 := lt_of_lt_of_le (Nat.mul_lt_mul_of_pos_right h2 (by positivity)) h3
  simp only [bitsAt, BitVec.toNat_shiftLeft, BitVec.toNat_setWidth, BitVec.toNat_and, BitVec.toNat_ofNat, Nat.shiftLeft_eq]
  rw [Nat.mod_eq_of_lt (a := 2 ^ m - 1) (by omega), Nat.and_two_pow_sub_one_eq_mod]
  rw [Nat.mod_eq_of_lt (a := b.toNat % 2 ^ m) (by omega), Nat.mod_eq_of_lt h4]

theorem utf8Value2_toNat (b0 b1 : Byte) : (utf8Value2 b0 b1).toNat = b0.toNat % 2 ^ 5 * 2 ^ 6 + b1.toNat % 2 ^ 6 := by
  have h0 : (bitsAt b0 0x1F 6).toNat = b0.toNat % 2 ^ 5 * 2 ^ 6 := bitsAt_toNat b0 5 6 (by decide) (by decide)
  have h1 : (bitsAt b1 0x3F 0).toNat = b1.toNat % 2 ^ 6 * 2 ^ 0 := bitsAt_toNat b1 6 0 (by decide) (by decide)
  simp only [utf8Value2, BitVec.toNat_add, h0, h1]
  omega

theorem utf8Value3_toNat (b0 b1 b2 : Byte) :
    (utf8Value3 b0 b1 b2).toNat = b0.toNat % 2 ^ 4 * 2 ^ 12 + b1.toNat % 2 ^ 6 * 2 ^ 6 + b2.toNat % 2 ^ 6 := by
  have h0 : (bitsAt b0 0x0F 12).toNat = b0.toNat % 2 ^ 4 * 2 ^ 12 := bitsAt_toNat b0 4 12 (by decide) (by decide)
  have h1 : (bitsAt b1 0x3F 6).toNat = b1.toNat % 2 ^ 6 * 2 ^ 6 := bitsAt_toNat b1 6 6 (by decide) (by decide)
  have h2 : (bitsAt b2 0x3F 0).toNat = b2.toNat % 2 ^ 6 * 2 ^ 0 := bitsAt_toNat b2 6 0 (by decide) (by decide)
  simp only [utf8Value3, BitVec.toNat_add, h0, h1, h2]
  omega

theorem utf8Value4_toNat (b0 b1 b2 b3 : Byte) :
    (utf8Value4 b0 b1 b2 b3).toNat
      = b0.toNat % 2 ^ 3 * 2 ^ 18 + b1.toNat % 2 ^ 6 * 2 ^ 12 + b2.toNat % 2 ^ 6 * 2 ^ 6 + b3.toNat % 2 ^ 6 := by
  have h0 : (bitsAt b0 0x07 18).toNat = b0.toNat % 2 ^ 3 * 2 ^ 18 := bitsAt_toNat b0 3 18 (by decide) (by decide)
  have h1 : (bitsAt b1 0x3F 12).toNat = b1.toNat % 2 ^ 6 * 2 ^ 12 := bitsAt_toNat b1 6 12 (by decide) (by decide)
  have h2 : (bitsAt b2 0x3F 6).toNat = b2.toNat % 2 ^ 6 * 2 ^ 6 := bitsAt_toNat b2 6 6 (by decide) (by decide)
  have h3 : (bitsAt b3 0x3F 0).toNat = b3.toNat % 2 ^ 6 * 2 ^ 0 := bitsAt_toNat b3 6 0 (by decide) (by decide)
  simp only [utf8Value4, BitVec.toNat_add, h0, h1, h2, h3]
  omega

/-! One lemma per length of a sequence: the reconstructor takes exactly the bytes in the ranges of the table. -/

theorem utf8Decode_row1 {b0 : Byte} (h : leadRow b0 = some ⟨1, 0, 0⟩) (rest : List Byte) :
    utf8Decode (b0 :: rest) = (utf8Decode rest).map (b0.setWidth 21 :: ·) := by
  rw [utf8Decode, h]; simp

theorem utf8Decode_row2 {b0 b1 : Byte} {lo hi : Nat} (h : leadRow b0 = some ⟨2, lo, hi⟩) (h1 : byteIn lo hi b1 = true)
    (rest : List Byte) : utf8Decode (b0 :: b1 :: rest) = (utf8Decode rest).map (utf8Value2 b0 b1 :: ·) := by
  rw [utf8Decode, h]; simp [h1]

theorem utf8Decode_row3 {b0 b1 b2 : Byte} {lo hi : Nat} (h : leadRow b0 = some ⟨3, lo, hi⟩) (h1 : byteIn lo hi b1 = true)
    (h2 : byteIn 0x80 0xBF b2 = true) (rest : List Byte) :
    utf8Decode (b0 :: b1 :: b2 :: rest) = (utf8Decode rest).map (utf8Value3 b0 b1 b2 :: ·) := by
  rw [utf8Decode, h]; simp [h1, h2]

theorem utf8Decode_row4 {b0 b1 b2 b3 : Byte} {lo hi : Nat} (h : leadRow b0 = some ⟨4, lo, hi⟩)
    (h1 : byteIn lo hi b1 = true) (h2 : byteIn 0x80 0xBF b2 = true) (h3 : byteIn 0x80 0xBF b3 = true)
    (rest : List Byte) :
    utf8Decode (b0 :: b1 :: b2 :: b3 :: rest) = (utf8Decode rest).map (utf8Value4 b0 b1 b2 b3 :: ·) := by
  rw [utf8Decode, h]; simp [h1, h2, h3]

theorem byteIn_iff {lo hi : Nat} {b : Byte} : byteIn lo hi b = true ↔ lo ≤ b.toNat ∧ b.toNat ≤ hi := by
  simp [byteIn]

/-- The reconstructor undoes the serialiser, character by character (41_encoder.md R51, 42_decoder.md R69). -/
theorem utf8Decode_encodeChar_append (c : CHAR) (hc : isChar c = true) (rest : List Byte) :
    utf8Decode (utf8EncodeChar c ++ rest) = (utf8Decode rest).map (c :: ·) := by
  have hn := utf8EncodeChar_toNat c hc
  have hlt : c.toNat < 0xD800 ∨ 0xDFFF < c.toNat ∧ c.toNat ≤ 0x10FFFF := by simpa [isChar] using hc
  generalize utf8EncodeChar c = bs at hn
  dsimp only at hn
  split_ifs at hn with h1 h2 h3
  · obtain ⟨b0, rfl, e0⟩ := List.map_eq_singleton_iff.1 hn
    have hl : leadRow b0 = some ⟨1, 0, 0⟩ := by simp [leadRow, e0, h1]
    rw [List.singleton_append, utf8Decode_row1 hl]
    congr 2; funext l; congr 1
    apply BitVec.eq_of_toNat_eq; simp [e0]; omega
  · obtain ⟨b0, bs, rfl, e0, hn⟩ := List.map_eq_cons_iff.1 hn
    obtain ⟨b1, rfl, e1⟩ := List.map_eq_singleton_iff.1 hn
    have hl : leadRow b0 = some ⟨2, 0x80, 0xBF⟩ := by
      simp only [leadRow]; rw [if_neg (by omega), if_neg (by omega), if_pos (by omega)]
    rw [List.cons_append, List.singleton_append, utf8Decode_row2 hl (byteIn_iff.2 (by omega))]
    congr 2; funext l; congr 1
    apply BitVec.eq_of_toNat_eq; rw [utf8Value2_toNat]; omega
  · obtain ⟨b0, bs, rfl, e0, hn⟩ := List.map_eq_cons_iff.1 hn
    obtain ⟨b1, bs, rfl, e1, hn⟩ := List.map_eq_cons_iff.1 hn
    obtain ⟨b2, rfl, e2⟩ := List.map_eq_singleton_iff.1 hn
    have hv : utf8Value3 b0 b1 b2 = c := by
      apply BitVec.eq_of_toNat_eq; rw [utf8Value3_toNat]; omega
    have hl : ∃ lo hi, leadRow b0 = some ⟨3, lo, hi⟩ ∧ byteIn lo hi b1 = true := by
      simp only [byteIn_iff]
      simp only [leadRow]
      rw [if_neg (by omega), if_neg (by omega), if_neg (by omega)]
      split_ifs
      · exact ⟨_, _, rfl, by omega⟩
      · exact ⟨_, _, rfl, by omega⟩
      · exact ⟨_, _, rfl, by omega⟩
      · exact ⟨_, _, rfl, by omega⟩
      all_goals omega
    obtain ⟨lo, hi, hl, hb⟩ := hl
    simp only [List.cons_append, List.nil_append]
    rw [utf8Decode_row3 hl hb (byteIn_iff.2 (by omega)), hv]
  · obtain ⟨b0, bs, rfl, e0, hn⟩ := List.map_eq_cons_iff.1 hn
    obtain ⟨b1, bs, rfl, e1, hn⟩ := List.map_eq_cons_iff.1 hn
    obtain ⟨b2, bs, rfl, e2, hn⟩ := List.map_eq_cons_iff.1 hn
    obtain ⟨b3, rfl, e3⟩ := List.map_eq_singleton_iff.1 hn
    have hv : utf8Value4 b0 b1 b2 b3 = c := by
      apply BitVec.eq_of_toNat_eq; rw [utf8Value4_toNat]; omega
    have hl : ∃ lo hi, leadRow b0 = some ⟨4, lo, hi⟩ ∧ byteIn lo hi b1 = true := by
      simp only [byteIn_iff]
      simp only [leadRow]
      rw [if_neg (by omega), if_neg (by omega), if_neg (by omega), if_neg (by omega), if_neg (by omega),
        if_neg (by omega), if_neg (by omega)]
      split_ifs
      · exact ⟨_, _, rfl, by omega⟩
      · exact ⟨_, _, rfl, by omega⟩
      · exact ⟨_, _, rfl, by omega⟩
      all_goals omega
    obtain ⟨lo, hi, hl, hb⟩ := hl
    simp only [List.cons_append, List.nil_append]
    rw [utf8Decode_row4 hl hb (byteIn_iff.2 (by omega)) (byteIn_iff.2 (by omega)), hv]

/-- What a first byte says (42_decoder.md R69), as ranges. -/
theorem leadRow_cases {b0 : Byte} {row : LeadRow} (h : leadRow b0 = some row) :
    (b0.toNat ≤ 0x7F ∧ row = ⟨1, 0, 0⟩) ∨
    (0xC2 ≤ b0.toNat ∧ b0.toNat ≤ 0xDF ∧ row = ⟨2, 0x80, 0xBF⟩) ∨
    (0xE0 ≤ b0.toNat ∧ b0.toNat ≤ 0xEF ∧ row.len = 3 ∧
      row.lo2 = (if b0.toNat = 0xE0 then 0xA0 else 0x80) ∧ row.hi2 = if b0.toNat = 0xED then 0x9F else 0xBF) ∨
    (0xF0 ≤ b0.toNat ∧ b0.toNat ≤ 0xF4 ∧ row.len = 4 ∧
      row.lo2 = (if b0.toNat = 0xF0 then 0x90 else 0x80) ∧ row.hi2 = if b0.toNat = 0xF4 then 0x8F else 0xBF) := by
  simp only [leadRow] at h
  split_ifs at h <;> cases h
  · exact .inl ⟨by omega, rfl⟩
  · exact .inr (.inl ⟨by omega, by omega, rfl⟩)
  all_goals first
    | exact .inr (.inr (.inl ⟨by omega, by omega, rfl, by
      first | rw [if_pos (by omega)] | rw [if_neg (by omega)], by
      first | rw [if_pos (by omega)] | rw [if_neg (by omega)]⟩))
    | exact .inr (.inr (.inr ⟨by omega, by omega, rfl, by
      first | rw [if_pos (by omega)] | rw [if_neg (by omega)], by
      first | rw [if_pos (by omega)] | rw [if_neg (by omega)]⟩))

/-- A character of given bytes, by its value: the bytes are the serialiser's when they are as R51 asks. -/
theorem utf8EncodeChar_eq {c : CHAR} (hc : isChar c = true) {bs : List Byte}
    (h : bs.map BitVec.toNat =
      (let n := c.toNat
       if n ≤ 0x7F then [n]
       else if n ≤ 0x7FF then [0xC0 + n / 2 ^ 6, 0x80 + n % 2 ^ 6]
       else if n ≤ 0xFFFF then [0xE0 + n / 2 ^ 12, 0x80 + n / 2 ^ 6 % 2 ^ 6, 0x80 + n % 2 ^ 6]
       else [0xF0 + n / 2 ^ 18, 0x80 + n / 2 ^ 12 % 2 ^ 6, 0x80 + n / 2 ^ 6 % 2 ^ 6, 0x80 + n % 2 ^ 6])) :
    utf8EncodeChar c = bs :=
  List.map_injective_iff.2 (fun _ _ => BitVec.eq_of_toNat_eq) ((utf8EncodeChar_toNat c hc).trans h.symm)

/-- What the reconstructor takes first is the serialiser's form of a character, and the rest is reconstructed. -/
theorem utf8Decode_cons_eq_some {b0 : Byte} {rest : List Byte} {text : List CHAR}
    (h : utf8Decode (b0 :: rest) = some text) :
    ∃ c tail text', isChar c = true ∧ b0 :: rest = utf8EncodeChar c ++ tail ∧ utf8Decode tail = some text' ∧
      text = c :: text' := by
  cases hr : leadRow b0 with
  | none => rw [utf8Decode, hr] at h; cases h
  | some row =>
    rcases leadRow_cases hr with ⟨h0, rfl⟩ | ⟨h0, h0', rfl⟩ | ⟨h0, h0', hlen, hlo, hhi⟩ | ⟨h0, h0', hlen, hlo, hhi⟩
    · rw [utf8Decode_row1 hr] at h
      obtain ⟨t', ht, rfl⟩ := Option.map_eq_some_iff.1 h
      have hv : (b0.setWidth 21).toNat = b0.toNat := by simp; omega
      have hc : isChar (b0.setWidth 21) = true := by simp only [isChar, hv]; simp; omega
      refine ⟨_, rest, t', hc, ?_, ht, rfl⟩
      rw [utf8EncodeChar_eq (bs := [b0]) hc]
      · rfl
      · simp only [hv]; rw [if_pos (by omega)]; rfl
    · rcases rest with _ | ⟨b1, rest⟩
      · rw [utf8Decode, hr] at h; cases h
      · by_cases h1 : byteIn 0x80 0xBF b1 = true
        · rw [utf8Decode_row2 hr h1] at h
          obtain ⟨t', ht, rfl⟩ := Option.map_eq_some_iff.1 h
          rw [byteIn_iff] at h1
          have hv := utf8Value2_toNat b0 b1
          have hc : isChar (utf8Value2 b0 b1) = true := by simp only [isChar, hv]; simp; omega
          refine ⟨_, rest, t', hc, ?_, ht, rfl⟩
          rw [utf8EncodeChar_eq (bs := [b0, b1]) hc]
          · rfl
          · simp only [hv]; rw [if_neg (by omega), if_pos (by omega)]
            simp only [List.map_cons, List.map_nil, List.cons.injEq, and_true]; omega
        · rw [utf8Decode, hr] at h; simp [h1] at h
    · obtain ⟨len, lo, hi⟩ := row
      dsimp only at hlen hlo hhi
      subst hlen
      rcases rest with _ | ⟨b1, _ | ⟨b2, rest⟩⟩
      · rw [utf8Decode, hr] at h; cases h
      · rw [utf8Decode, hr] at h; cases h
      · by_cases h1 : byteIn lo hi b1 = true ∧ byteIn 0x80 0xBF b2 = true
        · rw [utf8Decode_row3 hr h1.1 h1.2] at h
          obtain ⟨t', ht, rfl⟩ := Option.map_eq_some_iff.1 h
          rw [byteIn_iff, byteIn_iff] at h1
          have hv := utf8Value3_toNat b0 b1 b2
          have hr1 : 0x80 ≤ b1.toNat ∧ b1.toNat ≤ 0xBF ∧ (b0.toNat = 0xE0 → 0xA0 ≤ b1.toNat) ∧
              (b0.toNat = 0xED → b1.toNat ≤ 0x9F) := by
            split_ifs at hlo hhi <;> omega
          have hc : isChar (utf8Value3 b0 b1 b2) = true := by simp only [isChar, hv]; simp; omega
          refine ⟨_, rest, t', hc, ?_, ht, rfl⟩
          rw [utf8EncodeChar_eq (bs := [b0, b1, b2]) hc]
          · rfl
          · simp only [hv]; rw [if_neg (by omega), if_neg (by omega), if_pos (by omega)]
            simp only [List.map_cons, List.map_nil, List.cons.injEq, and_true]; omega
        · rw [utf8Decode, hr] at h; simp at h; exact absurd ⟨h.1.1, h.1.2⟩ h1
    · obtain ⟨len, lo, hi⟩ := row
      dsimp only at hlen hlo hhi
      subst hlen
      rcases rest with _ | ⟨b1, _ | ⟨b2, _ | ⟨b3, rest⟩⟩⟩
      · rw [utf8Decode, hr] at h; cases h
      · rw [utf8Decode, hr] at h; cases h
      · rw [utf8Decode, hr] at h; cases h
      · by_cases h1 : byteIn lo hi b1 = true ∧ byteIn 0x80 0xBF b2 = true ∧ byteIn 0x80 0xBF b3 = true
        · rw [utf8Decode_row4 hr h1.1 h1.2.1 h1.2.2] at h
          obtain ⟨t', ht, rfl⟩ := Option.map_eq_some_iff.1 h
          simp only [byteIn_iff] at h1
          have hv := utf8Value4_toNat b0 b1 b2 b3
          have hr1 : 0x80 ≤ b1.toNat ∧ b1.toNat ≤ 0xBF ∧ (b0.toNat = 0xF0 → 0x90 ≤ b1.toNat) ∧
              (b0.toNat = 0xF4 → b1.toNat ≤ 0x8F) := by
            split_ifs at hlo hhi <;> omega
          have hc : isChar (utf8Value4 b0 b1 b2 b3) = true := by simp only [isChar, hv]; simp; omega
          refine ⟨_, rest, t', hc, ?_, ht, rfl⟩
          rw [utf8EncodeChar_eq (bs := [b0, b1, b2, b3]) hc]
          · rfl
          · simp only [hv]; rw [if_neg (by omega), if_neg (by omega), if_neg (by omega)]
            simp only [List.map_cons, List.map_nil, List.cons.injEq, and_true]; omega
        · rw [utf8Decode, hr] at h; simp at h; exact absurd ⟨h.1.1.1, h.1.1.2, h.1.2⟩ h1

end Sys2Proof.Machine
end

