-- ==== Sys2Proof/Tests/Slice0.lean ====
section
/-! SUPPORT. The model's own tests: expected results are those of 95_test_vectors.md (V-…, W…, P…) or read from the rules
by hand. A theorem named witness_<Obligation> shows values that meet the hypotheses of that obligation. -/

open Sys2Proof Sys2Proof.Machine

namespace Sys2Proof.Tests

/-! ### States the tests use -/

/-- A block under TEST_ALPHABET in the given mode. -/
def block (mode : StripMode) (limit : Option Nat := none) : State :=
  State.construct { alphabet := testAlphabet, stripMode := mode, maxInLen := limit }

/-- A block whose alphabet has one entry twice. -/
def badBlock (limit : Option Nat) : State :=
  State.construct { alphabet := [0x30, 0x31, 0x32, 0x33, 0x34, 0x35, 0x36, 0x36], stripMode := .reference, maxInLen := limit }

/-- The response that an outcome leaves to the requester served. -/
def answer : Host.Outcome State Fault Refusal → Option Response
  | .next u => (u.port u.serving).rsp
  | _ => none

/-- The state of an outcome, where there is one. -/
def nextOr (d : State) : Host.Outcome State Fault Refusal → State
  | .next u => u
  | _ => d

/-- The answer of DECODE to U+0042, which is not in TEST_ALPHABET (P7, step 3). -/
def answerB : Response := ⟨1, some 0x42, []⟩

/-- P7 after step 2: requester 1 ("A") and requester 2 ("B") are BUSY. -/
def twoBusy : State := ((block .corrected).accept 1 ⟨0, [0x61, 0x62]⟩).accept 2 ⟨1, [0x42]⟩

/-- P7 after step 3, the reset presented. -/
def beforeReset : State := { nextOr twoBusy (serve 2 twoBusy) with inputs := [.reset] }

/-- Requester 1 presents ENCODE "a", alone. -/
def presented : State := { block .reference with inputs := [.request 1 ⟨0, [0x61]⟩] }

/-- Requester 1 is BUSY with ENCODE "a", alone. -/
def oneBusy : State := (block .reference).accept 1 ⟨0, [0x61]⟩

/-! ### Checks that refuse ill-formed terms -/

/-- R6: the first and last surrogates and the first value above U+10FFFF are no `CHAR`s. -/
theorem test_isChar_refuses : [0xD800#21, 0xDFFF#21, 0x110000#21, 0x1FFFFF#21].all (fun c => !isChar c) = true := by decide

/-- R6: the values next to those limits are. -/
theorem test_isChar_accepts : [0#21, 0xD7FF#21, 0xE000#21, 0x10FFFF#21].all isChar = true := by decide

theorem test_wellFormed_refuses :
    (Instr.encode [0x61, 0xD800]).wellFormed = false ∧ (Instr.decode [0x110000]).wellFormed = false := by decide

/-- R91: seven entries, nine entries, one entry twice, an entry that is no `CHAR`. -/
theorem test_alphabetOk_refuses :
    alphabetOk [0x30, 0x31, 0x32, 0x33, 0x34, 0x35, 0x36] = false ∧
    alphabetOk (testAlphabet ++ [0x38]) = false ∧
    alphabetOk [0x30, 0x31, 0x32, 0x33, 0x34, 0x35, 0x36, 0x30] = false ∧
    alphabetOk [0x30, 0x31, 0x32, 0x33, 0x34, 0x35, 0x36, 0xDFFF] = false := by decide

theorem test_alphabetOk_accepts : alphabetOk testAlphabet = true := by decide

/-- The decoder rejects by name; the leftmost offending value is named. -/
theorem test_decode_rejects :
    decode ⟨1, [0x30, 0xD800, 0x110000]⟩ = .error (.notAChar 0xD800) ∧ decodeTableWord 0 1 = none := by decide

/-! ### The words of 95_test_vectors.md section 3, and those of opcode_table.json -/

theorem test_decode_encode_word : decode ⟨0, [0x61, 0x62, 0x63]⟩ = .ok (.encode [0x61, 0x62, 0x63]) := by decide

theorem test_decode_decode_word :
    decode ⟨1, [0x33, 0x30, 0x32, 0x37]⟩ = .ok (.decode [0x33, 0x30, 0x32, 0x37]) := by decide

theorem test_table_words : decodeTableWord 8 0b0 = some (.encode []) ∧ decodeTableWord 8 0b1 = some (.decode []) := by
  decide

/-! ### One command each, against the vectors -/

/-- W1, V-E2: ENCODE "a". -/
theorem test_encode_a : answer (exec (.encode [0x61]) (block .reference)) = some ⟨0, none, [0x33, 0x30, 0x32, 0x37]⟩ := by
  decide

/-- V-E10: ENCODE U+1F600. -/
theorem test_encode_four_bytes : answer (exec (.encode [0x1F600]) (block .reference)) =
    some ⟨0, none, [0x37, 0x34, 0x31, 0x31, 0x37, 0x36, 0x33, 0x30, 0x34, 0x30, 0x30, 0x37]⟩ := by decide

/-- V-D19: DECODE S3 X S2 S7. -/
theorem test_decode_invalid_symbol : answer (exec (.decode [0x33, 0x41, 0x32, 0x37]) (block .reference)) =
    some ⟨1, some 0x41, []⟩ := by decide

/-- V-D23, V-D22: the truncation to an error under REFERENCE, and "ab" under CORRECTED. -/
theorem test_decode_modes :
    answer (exec (.decode [0x36, 0x30, 0x37, 0x32, 0x34, 0x34, 0x37, 0x37]) (block .reference)) = some ⟨2, none, []⟩ ∧
    answer (exec (.decode [0x33, 0x30, 0x32, 0x36, 0x31, 0x30, 0x37, 0x37]) (block .corrected)) =
      some ⟨0, none, [0x61, 0x62]⟩ := by decide

/-- V-D8, V-D14, V-D24 under REFERENCE: an unchecked tail, the byte FF, three markers. -/
theorem test_decode_corners :
    answer (exec (.decode [0x33, 0x30, 0x33]) (block .reference)) = some ⟨0, none, [0x61]⟩ ∧
    answer (exec (.decode (List.replicate 8 0x37)) (block .reference)) = some ⟨2, none, []⟩ ∧
    answer (exec (.decode [0x33, 0x30, 0x32, 0x36, 0x31, 0x30, 0x37, 0x37, 0x37]) (block .reference)) =
      some ⟨0, none, [0x61, 0x62]⟩ := by decide

/-- V-U10 to V-U23: every ill-formed sequence of the spec's table. -/
theorem test_utf8_ill_formed :
    ([[0x80], [0xC0, 0x80], [0xC1, 0xBF], [0xE0, 0x80, 0x80], [0xE0, 0x9F, 0xBF], [0xED, 0xA0, 0x80],
      [0xF0, 0x8F, 0xBF, 0xBF], [0xF4, 0x90, 0x80, 0x80], [0xF5, 0x80, 0x80, 0x80], [0xC3], [0xE2, 0x82], [0xFF],
      [0xC3, 0x28], [0x61, 0xC3]] : List (List Byte)).all (fun b => decide (utf8Decode b = none)) = true := by decide

/-- V-U4 to V-U7, V-U9. -/
theorem test_utf8_well_formed :
    utf8Decode [0xC3, 0xA9] = some [0xE9] ∧ utf8Decode [0xE2, 0x82, 0xAC] = some [0x20AC] ∧
    utf8Decode [0xF0, 0x9F, 0x98, 0x80] = some [0x1F600] ∧ utf8Decode [0xF4, 0x8F, 0xBF, 0xBF] = some [0x10FFFF] ∧
    utf8Decode [0xED, 0x9F, 0xBF] = some [0xD7FF] := by decide

/-- The word placed at reset is run by the very next step: ENCODE "" and DECODE "" (V-E1, V-D1). -/
theorem test_fetch_word :
    answer (step (State.reset.withFetchWord 8 0)) = some ⟨0, none, []⟩ ∧
    answer (step (State.reset.withFetchWord 8 1)) = some ⟨0, none, []⟩ := by decide

/-- P7: B's response, then a reset: A's command is abandoned, B's response stands. -/
theorem test_p7_reset :
    (nextOr beforeReset (perform .reset beforeReset)).inFlight = [] ∧
    ((nextOr beforeReset (perform .reset beforeReset)).port 2).received = [answerB] := by decide

/-! ### Witnesses -/

theorem block_runs (mode : StripMode) (i : Instr) (h : i.wellFormed = true) : (block mode).Runs i :=
  ⟨by cases mode <;> decide, rfl, h⟩

/-- A single response of the spec's kind keeps the invariant's last clause. -/
theorem answerB_legal : answerB.Legal := by
  constructor
  · decide
  · decide
  · decide
  · decide
  · intro c hc
    have : c = 0x42 := by simpa [answerB] using hc.symm
    subst this; decide

/-- Requester 1 is BUSY with a command above the limit, which also holds a value that is no `CHAR`; a reset is presented. -/
def overLongBusy : State := { (block .reference (some 1)).accept 1 ⟨0, [0x61, 0xD800]⟩ with inputs := [.reset] }

/-- R82: the length is checked before anything else, in the step as in the meaning. -/
theorem test_length_first :
    (match serve 1 overLongBusy, exec (.encode [0x61, 0xD800]) { overLongBusy with serving := 1 } with
      | .refused (.overLong a), .refused (.overLong b) => decide (a = 1 ∧ b = 1)
      | _, _ => false) = true := by decide

/-- A block with no port listed meets the invariant. -/
theorem inv_of_no_ports {s : State} (h : s.ports = []) : Inv s := by
  constructor <;> simp [h]

theorem inv_presented : Inv presented := inv_of_no_ports rfl

theorem inv_oneBusy : Inv oneBusy := by
  have hp : oneBusy.ports = [(1, ⟨.busy ⟨0, [0x61]⟩, none, []⟩)] := rfl
  constructor <;> simp [hp, Port.fresh]

theorem inv_overLongBusy : Inv overLongBusy := by
  have hp : overLongBusy.ports = [(1, ⟨.busy ⟨0, [0x61, 0xD800]⟩, none, []⟩)] := rfl
  constructor <;> simp [hp, Port.fresh]

theorem inv_twoBusy : Inv twoBusy := by
  have hp : twoBusy.ports = [(1, ⟨.busy ⟨0, [0x61, 0x62]⟩, none, []⟩), (2, ⟨.busy ⟨1, [0x42]⟩, none, []⟩)] := rfl
  constructor <;> simp [hp, Port.fresh]

theorem inv_beforeReset : Inv beforeReset := by
  have hp : beforeReset.ports = [(1, ⟨.busy ⟨0, [0x61, 0x62]⟩, none, []⟩), (2, ⟨.idle, some answerB, [answerB]⟩)] := by
    decide
  constructor <;> simp [hp, Port.fresh, answerB_legal]

theorem witness_CommandBitSelectsCommand : ([0, 0xD7FF, 0xE000, 0x10FFFF] : List CHAR).all isChar = true := by decide

theorem witness_EveryCommandWordIsDefined :
    ([0, 0x10FFFF] : List CHAR).all isChar = true ∧ ([] : List CHAR).all isChar = true := by decide

theorem witness_DecodeEncodeAgree :
    (Instr.encode [0x10FFFF]).wellFormed = true ∧ (Instr.decode [0xD7FF]).wellFormed = true ∧
    decode ⟨0, [0xE000]⟩ = .ok (.encode [0xE000]) ∧ decode ⟨1, []⟩ = .ok (.decode []) := by decide

/-- A built block, a char of the first and of the last entry, and the chars next to the alphabet on both sides. -/
theorem witness_RomSearchInvertsRomRead :
    (block .reference).built = true ∧ romSearch (block .reference).rom 0x30 = some 0 ∧
    romSearch (block .reference).rom 0x37 = some 7 ∧ romSearch (block .reference).rom 0x2F = none ∧
    romSearch (block .reference).rom 0x38 = none := by decide

theorem witness_RomEntriesAreDistinct :
    (block .reference).built = true ∧
    ¬ ((badBlock none).config.alphabet.length = 8 ∧ (badBlock none).config.alphabet.Nodup) := by decide

/-- A step that accepts, and one that answers. -/
theorem witness_StepKeepsRomAndConfiguration :
    (∃ t, step presented = .next t) ∧ (∃ t, step oneBusy = .next t) := ⟨⟨_, rfl⟩, ⟨_, rfl⟩⟩

theorem witness_BitStringIsMsbFirst :
    ([0x61, 0x80] : List Byte)[1]? = some 0x80 ∧ 0 < 8 ∧ 7 < 8 ∧
    (bitString [0x61, 0x80])[8]? = some true ∧ (bitString [0x61, 0x80])[15]? = some false := by decide

/-- W4: `n` = 0, 1, 2, 3. -/
theorem test_padCount : [0, 8, 16, 24].map padCount = [0, 1, 2, 0] := by decide

theorem witness_GroupsAreMsbFirst :
    ([false, true, true, true, false, false] : Bits).length % 3 = 0 ∧
    ([false, true, true, true, false, false] : Bits)[3]? = some true ∧
    extractGroups [false, true, true, true, false, false] = [3, 4] := by decide

theorem witness_RebuiltBitsAreMsbFirst :
    ([2, 4] : List Index)[1]? = some 4 ∧ rebuildBits [2, 4] = [false, true, false, true, false, false] := by decide

/-- R67: more bits asked for than there are, in both modes. -/
theorem test_strip_saturates :
    stripBits (stripCount .reference 2) [true, true, true] = [] ∧ stripBits (stripCount .corrected 2) [true] = [] ∧
    stripBits (stripCount .corrected 1) [true, false] = [true] := by decide

/-- The byte-packer vectors of section 2.3, and a tail of the greatest length. -/
theorem witness_BytePackerIsMsbFirst :
    1 < (List.replicate 16 true).length / 8 ∧
    ([false, true, true, false, false, false, false, true] : Bits).length % 8 = 0 ∧
    ([true, true, true, true, true, true, true] : Bits).length < 8 ∧
    packBytes [false, true, true, false, false, false, false, true, true] = [0x61] ∧
    packBytes [false, true, true, false, false, false, false] = [] := by decide

/-- The first and last `CHAR` of each row of the table of R51. -/
theorem witness_SerialiserFollowsTable :
    ([0, 0x7F, 0x80, 0x7FF, 0x800, 0xD7FF, 0xE000, 0xFFFF, 0x10000, 0x10FFFF] : List CHAR).all isChar = true ∧
    utf8Encode [0x7F, 0x80, 0x7FF] = [0x7F, 0xC2, 0x80, 0xDF, 0xBF] ∧
    utf8Encode [0x800, 0xFFFF] = [0xE0, 0xA0, 0x80, 0xEF, 0xBF, 0xBF] ∧
    utf8Encode [0x10000, 0x10FFFF] = [0xF0, 0x90, 0x80, 0x80, 0xF4, 0x8F, 0xBF, 0xBF] := by decide

theorem witness_DecodedLengthIsBounded :
    utf8Decode [0xF0, 0x9F, 0x98, 0x80] = some [0x1F600] ∧ utf8Decode [0x61] = some [0x61] ∧ utf8Decode [] = some [] := by
  decide

theorem witness_EncodeDeliversItsStages :
    (block .reference).Runs (.encode []) ∧ (block .corrected).Runs (.encode [0x61, 0x10FFFF]) :=
  ⟨block_runs _ _ (by decide), block_runs _ _ (by decide)⟩

/-- The limit itself is within it. -/
theorem witness_EncodeNeverFails :
    (block .reference (some 2)).rom = romOf testAlphabet ∧ (block .reference (some 2)).Runs (.encode [0x61, 0x62]) :=
  ⟨rfl, by decide, by decide, by decide⟩

theorem witness_EncodedSequenceHasTheWireFormat :
    0 < ((8 * (utf8Encode [0x61]).length + 2) / 3) ∧ (utf8Encode [0x61]).length % 3 = 1 := by decide

theorem witness_EncodeOfEmptyTextIsEmpty : (block .reference (some 0)).built = true := by decide

theorem witness_EncodeStaysInAlphabet : (block .reference).Runs (.encode [0x61, 0x62]) := block_runs _ _ (by decide)

theorem witness_EncodeConcatenates :
    (utf8Encode [0x61, 0xE9]).length % 3 = 0 ∧ (utf8Encode []).length % 3 = 0 := by decide

/-- The three lengths modulo 3, with both values of the last bit for `n mod 3 = 2`. -/
theorem witness_EncodedTailIsAsSpecified :
    (block .reference).built = true ∧ ([0x61, 0x62, 0x63] : List CHAR).all isChar = true ∧
    utf8Encode [0x61] = [] ++ [0x61] ∧ utf8Encode [0x61, 0x62] = [0x61] ++ [0x62] ∧
    utf8Encode [0x61, 0x63] = [0x61] ++ [0x63] ∧ utf8Encode [0x61, 0x62, 0x63] = [0x61, 0x62] ++ [0x63] := by decide

/-- V-E12a and V-E12b: the collision, and two texts that do not collide. -/
theorem witness_EncodeCollidesOnlyOnQuestionMark :
    (block .reference).built = true ∧ ([0x61, 0x62, 0x3F] : List CHAR).all isChar = true ∧
    encodeText (romOf testAlphabet) [0x61, 0x62] = encodeText (romOf testAlphabet) [0x61, 0x62, 0x3F] ∧
    encodeText (romOf testAlphabet) [0x61] ≠ encodeText (romOf testAlphabet) [0x61, 0x3F] := by decide

/-- Zero to three markers at the end. -/
theorem test_suffix_detector :
    [[], [0x37], [0x37, 0x30], [0x30, 0x37], [0x37, 0x37], [0x37, 0x37, 0x37]].map (detectPadding (romOf testAlphabet)) =
      [0, 1, 0, 1, 2, 2] := by decide

/-- V-D18: the offending char is last. -/
theorem witness_UnknownSymbolEndsDecode :
    (block .reference).Runs (.decode ([0x33, 0x30, 0x32, 0x37] ++ 0x41 :: [])) ∧
    (∀ d ∈ ([0x33, 0x30, 0x32, 0x37] : List CHAR), ∃ i : Index, romRead (block .reference).rom i = d) ∧
    ∀ i : Index, romRead (block .reference).rom i ≠ 0x41 := by
  refine ⟨block_runs _ _ (by decide), fun d hd => ?_, by decide⟩
  simp only [List.mem_cons, List.not_mem_nil, or_false] at hd
  obtain rfl | rfl | rfl | rfl := hd
  exacts [⟨3, rfl⟩, ⟨0, rfl⟩, ⟨2, rfl⟩, ⟨7, rfl⟩]

/-- V-D9 in both modes. -/
theorem witness_DecodeOfRomSymbols (mode : StripMode) :
    (block mode).Runs (.decode [0x33, 0x30, 0x32, 0x37]) ∧
    bodyOf (block mode).rom [0x33, 0x30, 0x32, 0x37] = ([3, 0, 2] : List Index).map (romRead (block mode).rom) :=
  ⟨block_runs _ _ (by decide), by cases mode <;> decide⟩

theorem witness_DecodeOfEmptyInputIsEmpty :
    (block .reference).built = true ∧ (block .corrected).built = true := by decide

/-- Five markers are the most that decode, in both modes. -/
theorem witness_DecodeOfMarkersOnly (mode : StripMode) :
    (block mode).built = true ∧ decodeText (block mode).rom mode (List.replicate 5 0x37) = .ok [] ∧
    decodeText (block mode).rom mode (List.replicate 6 0x37) = .error .invalidUtf8 := by cases mode <;> decide

/-- V-R11 and V-R10 under REFERENCE: an error, and two bytes lost. -/
theorem witness_DecodeAfterEncodeKeepsAPrefix :
    (block .reference).built = true ∧ ([0xE9] : List CHAR).all isChar = true ∧
    decodeText (romOf testAlphabet) .reference (encodeText (romOf testAlphabet) [0xE9]) = .error .invalidUtf8 ∧
    decodeText (romOf testAlphabet) .reference (encodeText (romOf testAlphabet) [0x61, 0x62, 0x3F]) = .ok [0x61] := by decide

/-- V-R4 survives in both modes, V-R2 only under CORRECTED, V-R8 in neither. -/
theorem witness_RoundTripHoldsExactlyWhen :
    (block .reference).built = true ∧ ([0x61, 0x62, 0x63] : List CHAR).all isChar = true ∧
    ((utf8Encode [0x61, 0x62, 0x63]).getLastD 0).toNat % 8 ≠ 7 ∧ (utf8Encode [0x61]).length % 3 ≠ 0 ∧
    ((utf8Encode [0x66, 0x6F, 0x6F]).getLastD 0).toNat % 8 = 7 := by decide

theorem witness_NoDecoderInvertsEncode : (utf8Encode [0x61, 0x62]).length % 3 = 2 := by decide

/-- An ENCODE, a DECODE that succeeds, and one for each error. -/
theorem witness_ResponsesAreLegal :
    (∃ u, exec (.encode [0x61]) (block .reference) = .next u) ∧
    (∃ u, exec (.decode [0x33, 0x30, 0x32]) (block .reference) = .next u) ∧
    (∃ u, exec (.decode [0x41]) (block .reference) = .next u) ∧
    (∃ u, exec (.decode [0x34, 0x30, 0x30]) (block .reference) = .next u) :=
  ⟨⟨_, exec_of_runs (block_runs _ _ (by decide))⟩, ⟨_, exec_of_runs (block_runs _ _ (by decide))⟩,
    ⟨_, exec_of_runs (block_runs _ _ (by decide))⟩, ⟨_, exec_of_runs (block_runs _ _ (by decide))⟩⟩

theorem witness_CommandHasNoOtherEffect :
    (∃ u, exec (.encode [0x61]) twoBusy = .next u) ∧ ∃ u, exec (.decode [0x41]) twoBusy = .next u :=
  ⟨⟨_, exec_of_runs ⟨by decide, rfl, by decide⟩⟩, ⟨_, exec_of_runs ⟨by decide, rfl, by decide⟩⟩⟩

theorem witness_ResponseDependsOnRomAndModeOnly :
    twoBusy.rom = (block .corrected).rom ∧ twoBusy.config.stripMode = (block .corrected).config.stripMode ∧
    twoBusy.Runs (.decode [0x41]) ∧ (block .corrected).Runs (.decode [0x41]) :=
  ⟨rfl, rfl, ⟨by decide, rfl, by decide⟩, block_runs _ _ (by decide)⟩

/-- P3: command 1 is an error, command 2 then runs. -/
theorem witness_NextCommandIgnoresEarlierError :
    (∃ u, exec (.decode [0x33, 0x41, 0x32, 0x37]) (block .reference) = .next u) ∧
    (block .reference).Runs (.decode [0x33, 0x30, 0x32]) := 
  ⟨⟨_, exec_of_runs (block_runs _ _ (by decide))⟩, block_runs _ _ (by decide)⟩

/-- A bad alphabet; an operand at the limit and one above it. -/
theorem witness_BadAlphabetRefusesEveryCommand :
    alphabetOk (badBlock (some 1)).config.alphabet = false ∧
    (badBlock (some 1)).overLimit (Instr.encode [0x61]).input = false ∧
    (badBlock (some 1)).overLimit (Instr.encode [0x61, 0x62]).input = true := by decide

/-- Whether an outcome is the refusal of a block without a well-formed alphabet. -/
def refusedBlock : Host.Outcome State Fault Refusal → Bool
  | .refused .badAlphabet => true
  | _ => false

/-- R91, O3: such a block accepts no request, takes no reset and does not idle. -/
theorem test_bad_block_has_no_step :
    refusedBlock (step { badBlock none with inputs := [.request 1 ⟨0, [0x61]⟩] }) = true ∧
    refusedBlock (step { badBlock none with inputs := [.reset] }) = true ∧ refusedBlock (step (badBlock none)) = true := by
  decide

theorem witness_OverLongCommandIsRefused :
    (block .reference (some 1)).config.maxInLen = some 1 ∧ 1 < (Instr.encode [0x61, 0x62]).input.length ∧
    overLongBusy.config.maxInLen = some 1 ∧ (overLongBusy.port 1).txn = .busy ⟨0, [0x61, 0xD800]⟩ ∧
    (block .reference).config.maxInLen = none := by decide

theorem witness_StepRunsDecodedCommand :
    oneBusy.candidates = [.complete 1] ∧ (oneBusy.port 1).txn = .busy ⟨0, [0x61]⟩ ∧
    decode ⟨0, [0x61]⟩ = .ok (.encode [0x61]) := by decide

theorem witness_FetchWordRunsNext : decodeTableWord 8 0 = some (.encode []) ∧ decodeTableWord 8 1 = some (.decode []) := by
  decide

/-- A built block with two possible events, a busy requester, a quiet built block, a block that is not built. -/
theorem witness_StepPerformsOnePossibleEvent :
    twoBusy.built = true ∧ (block .reference).built = true ∧ (badBlock none).built = false ∧ twoBusy.candidates = [.complete 1, .complete 2] ∧ (twoBusy.port 2).txn = .busy ⟨1, [0x42]⟩ ∧
    decode ⟨1, [0x42]⟩ = .ok (.decode [0x42]) ∧ (block .reference).Quiet :=
  ⟨by decide, by decide, by decide, by decide, by decide, by decide, rfl, rfl⟩

/-- One next state for each of the four cases: requester 1 is accepted, requester 2 is left alone meanwhile, requester 1
is answered, requester 1 is reset (with the reset and requester 1's response both possible, performed by name). -/
theorem witness_RequesterMovesBetweenIdleAndBusy :
    Inv presented ∧ Inv oneBusy ∧ Inv { block .reference with inputs := [.reset] } ∧
    (∃ t, step presented = .next t ∧ t.port 2 = presented.port 2 ∧ (t.port 1).txn = .busy ⟨0, [0x61]⟩) ∧
    (∃ t, step oneBusy = .next t ∧ (t.port 1).txn = .idle) ∧
    (∃ t, step { block .reference with inputs := [.reset] } = .next t) ∧
    ∃ t, perform .reset beforeReset = .next t ∧ t.port 1 = ⟨.idle, none, []⟩ :=
  ⟨inv_presented, inv_oneBusy, inv_of_no_ports rfl, ⟨_, rfl, by decide, by decide⟩, ⟨_, rfl, by decide⟩, ⟨_, rfl⟩,
    ⟨_, rfl, by decide⟩⟩

/-- A command is in flight, another has been answered; and a reset is the only possible event, a refused command being in
flight. -/
theorem witness_ResetAbandonsCommandsInFlight :
    (Inv beforeReset ∧ beforeReset.inFlight = [(1, ⟨0, [0x61, 0x62]⟩)]) ∧
    Inv overLongBusy ∧ overLongBusy.built = true ∧ overLongBusy.candidates = [.reset] :=
  ⟨⟨inv_beforeReset, by decide⟩, inv_overLongBusy, by decide, by decide⟩

theorem witness_StateAfterReset : alphabetOk Config.default.alphabet = true := by decide

/-- States with nothing, one and two commands in flight, and with a response delivered. -/
theorem witness_StepKeepsInvariant :
    (Inv presented ∧ ∃ t, step presented = .next t) ∧ (Inv oneBusy ∧ ∃ t, step oneBusy = .next t) ∧
    Inv twoBusy ∧ Inv beforeReset :=
  ⟨⟨inv_presented, ⟨_, rfl⟩⟩, ⟨inv_oneBusy, ⟨_, rfl⟩⟩, inv_twoBusy, inv_beforeReset⟩

theorem witness_ServingOrderIsNotObservable :
    1 ≠ 2 ∧ ∃ a b, serve 1 twoBusy = .next a ∧ serve 2 a = .next b := ⟨by decide, ⟨_, _, rfl, rfl⟩⟩

/-- One command in flight and a reset presented: three steps of work. -/
theorem witness_MachineComesToRest :
    Inv beforeReset ∧ beforeReset.built = true ∧ beforeReset.AllAdmitted ∧ beforeReset.work ≤ 3 :=
  ⟨inv_beforeReset, by decide, ⟨by decide, by intro r q h; simp [beforeReset] at h⟩, by decide⟩

/-- Two commands in flight, none presented; and one presented. -/
theorem witness_EveryCommandIsAnsweredAsIfAlone :
    (Inv twoBusy ∧ twoBusy.built = true ∧ twoBusy.AllAdmitted ∧ Input.reset ∉ twoBusy.inputs ∧ twoBusy.work ≤ 2) ∧
    (Inv presented ∧ presented.built = true ∧ presented.AllAdmitted ∧ Input.reset ∉ presented.inputs ∧ presented.work ≤ 2) := by
  refine ⟨⟨inv_twoBusy, by decide, ⟨by decide, ?_⟩, by decide, by decide⟩, inv_presented, by decide, ⟨by decide, ?_⟩,
    by decide, by decide⟩
  · intro r q h
    have : twoBusy.inputs = [] := rfl
    simp [this] at h
  · intro r q h
    have hi : presented.inputs = [.request 1 ⟨0, [0x61]⟩] := rfl
    rw [hi] at h
    obtain ⟨rfl, rfl⟩ : r = 1 ∧ q = ⟨0, [0x61]⟩ := by simpa using h
    decide

end Sys2Proof.Tests
end

section
/-! The statements of 10_state.md: the ROM of a built block, and the state after reset. -/

namespace Sys2Proof.Machine

/-! ### The ROM of a constructed block -/

/-- The eight entries of `romOf` as one formula in the index. -/
theorem romOf_eq_ofFn (a : List CHAR) : romOf a = Vector.ofFn fun k : Fin 8 => a.getD k 0 := rfl

theorem romRead_romOf (a : List CHAR) (i : Index) : romRead (romOf a) i = a.getD i.toNat 0 := by
  simp [romRead, romOf_eq_ofFn]

/-- `ROM[i] = ALPHABET[i]` (R13), for an alphabet that is long enough to fill the ROM. -/
theorem getElem?_eq_romRead_romOf {a : List CHAR} (h : 8 ≤ a.length) (i : Index) :
    a[i.toNat]? = some (romRead (romOf a) i) := by
  have hi : i.toNat < a.length := Nat.lt_of_lt_of_le i.isLt h
  rw [romRead_romOf, List.getD_eq_getElem _ _ hi, List.getElem?_eq_getElem hi]

/-! ### A command that cannot run -/

theorem exists_refused_of_not_runs {s : State} {i : Instr} (h : ¬ s.Runs i) : ∃ r, exec i s = .refused r := by
  rcases exec_cases i s with ⟨hr, _⟩ | ⟨r, _, he⟩
  · exact absurd hr h
  · exact ⟨r, he⟩

theorem alphabet_wellFormed_of_built {s : State} (h : s.built = true) :
    s.config.alphabet.length = 8 ∧ s.config.alphabet.Nodup := by
  obtain ⟨hrom, _, hnodup⟩ := State.built_iff.1 h
  exact hrom ▸ ⟨s.rom.length_toList, hnodup⟩

/-! ### The obligations -/

/-- Settles O5: a built block's ROM is a vector of 8 distinct entries, and a command runs only in a built block, whose
alphabet is that ROM. -/
theorem romEntriesAreDistinct : Obligations.RomEntriesAreDistinct := by
  constructor
  · intro s hb
    obtain ⟨_, _, hnodup⟩ := State.built_iff.1 hb
    exact ⟨s.rom.length_toList, fun _ _ => romRead_injective hnodup⟩
  · intro s i hbad
    exact exists_refused_of_not_runs fun hr => hbad (alphabet_wellFormed_of_built hr.built)

/-- Settles O44: a well-formed alphabet fills the ROM, and a constructed block lists no requester. -/
theorem stateAfterReset : Obligations.StateAfterReset := by
  intro c
  refine ⟨fun hok i => ?_, rfl, rfl, fun _ => rfl⟩
  obtain ⟨hlen, _, _⟩ := alphabetOk_iff.1 hok
  exact (getElem?_eq_romRead_romOf hlen.ge i).symm

end Sys2Proof.Machine
end

section
/-! The statements of 20_memory.md: the ROM and its reverse lookup, the order of the bits, and the frame of a command. -/

namespace Sys2Proof.Machine

/-! ### Blocks of equal length -/

/-- In blocks of `n` elements each, element `n * j + k` of the whole is element `k` of block `j`. -/
theorem getElem?_flatMap_of_length_eq {α β : Type} {n : Nat} {f : α → List β} (hf : ∀ a, (f a).length = n)
    {l : List α} {j k : Nat} {a : α} (hj : l[j]? = some a) (hk : k < n) : (l.flatMap f)[n * j + k]? = (f a)[k]? := by
  induction l generalizing j with
  | nil => simp at hj
  | cons x xs ih =>
    rw [List.flatMap_cons]
    cases j with
    | zero =>
      obtain rfl : x = a := by simpa using hj
      rw [Nat.mul_zero, Nat.zero_add, List.getElem?_append_left (by rwa [hf])]
    | succ j =>
      have hskip : n * (j + 1) + k - (f x).length = n * j + k := by rw [hf, Nat.mul_succ]; omega
      have hlen : (f x).length ≤ n * (j + 1) + k := by rw [hf, Nat.mul_succ]; omega
      rw [List.getElem?_append_right hlen, hskip]
      exact ih (by simpa using hj)

theorem getElem?_byteBits (b : Byte) {k : Nat} (hk : k < 8) : (byteBits b)[k]? = some (b.getLsbD (7 - k)) := by
  interval_cases k <;> rfl

/-! ### A command after a response -/

/-- A response changes nothing of what decides whether a command executes. -/
theorem State.runs_respond {s : State} {q : Response} {i : Instr} : (s.respond q).Runs i ↔ s.Runs i :=
  State.runs_congr (State.respond_rom s q) (State.respond_config s q)

/-! ### The obligations -/

/-- Settles O4: distinct entries make the hit the only index of `c`; a miss needs no distinctness. -/
theorem romSearchInvertsRomRead : Obligations.RomSearchInvertsRomRead := by
  intro s hb c
  obtain ⟨_, _, hnodup⟩ := State.built_iff.1 hb
  refine ⟨fun i => ⟨romRead_of_romSearch, ?_⟩, romSearch_eq_none⟩
  rintro rfl
  exact romSearch_romRead hnodup i

/-- Settles O6: none of the things a step can do (idle, reset, accept, respond) touches the ROM or the configuration. -/
theorem stepKeepsRomAndConfiguration : Obligations.StepKeepsRomAndConfiguration := by
  intro s t h
  obtain ⟨_, _, rfl⟩ | ⟨n, _, rfl⟩ | ⟨n, r, q, _, _, rfl⟩ | ⟨n, r, rfl, _⟩ | ⟨n, r, q, i, _, _, _, rfl⟩ := step_eq_next h
  case inl => exact ⟨rfl, rfl⟩
  case inr.inl => exact ⟨State.applyReset_rom _, State.applyReset_config _⟩
  case inr.inr.inl => exact ⟨State.accept_rom _ r q, State.accept_config _ r q⟩
  case inr.inr.inr.inl => exact ⟨rfl, rfl⟩
  case inr.inr.inr.inr => exact ⟨State.respond_rom _ _, State.respond_config _ _⟩

/-- Settles O7: the bit string is the concatenation of the bytes' blocks of eight bits. -/
theorem bitStringIsMsbFirst : Obligations.BitStringIsMsbFirst := by
  intro bytes
  refine ⟨length_bitString bytes, fun j k b hj hk => ?_⟩
  calc (bitString bytes)[8 * j + k]?
    _ = (byteBits b)[k]? := getElem?_flatMap_of_length_eq length_byteBits hj hk
    _ = some (b.getLsbD (7 - k)) := getElem?_byteBits b hk

/-- Settles O34: a command that executes only delivers its response, so the ROM and the configuration, on which its
running and its response depend, are the same when it executes again. -/
theorem commandHasNoOtherEffect : Obligations.CommandHasNoOtherEffect := by
  intro i s u h
  obtain ⟨hruns, rfl⟩ := exec_eq_next h
  refine ⟨State.respond_rom _ _, State.respond_config _ _, State.respond_inputs _ _, State.respond_serving _ _,
    State.respond_choices _ _, fun r hr => State.port_respond_of_ne s _ hr, _, State.port_respond_self s _, ?_⟩
  exact ⟨_, exec_of_runs (State.runs_respond.2 hruns), congrArg Port.rsp (State.port_respond_self (s.respond _) _)⟩

end Sys2Proof.Machine
end

section
/-! The statements of 30_encoding.md: which command a request selects. -/

namespace Sys2Proof.Machine

/-! ### Requests and commands -/

/-- A well-formed command comes back from its request. -/
theorem decode_encode {i : Instr} (h : i.wellFormed = true) : decode (encode i) = .ok i := by
  have hchars : firstNonChar i.input = none := firstNonChar_eq_none.2 (instr_wellFormed_eq i ▸ h)
  cases i with
  | encode t => simp only [Instr.input] at hchars; simp [decode, encode, hchars]
  | decode t => simp only [Instr.input] at hchars; simp [decode, encode, hchars]

/-- The one bit of `OP` has no value without a command (R42), so every request is the encoded form of one. -/
theorem exists_encode_eq (q : Request) : ∃ i, encode i = q := by
  obtain ⟨op, input⟩ := q
  obtain rfl | rfl : op = 0#1 ∨ op = 1#1 := (by decide : ∀ b : BitVec 1, b = 0#1 ∨ b = 1#1) op
  · exact ⟨.encode input, rfl⟩
  · exact ⟨.decode input, rfl⟩

/-- A table word of at least one bit is the command whose encoded form its request is. -/
theorem decodeTableWord_eq_some {n w : Nat} {i : Instr} (hn : n ≠ 0) (hw : i.wellFormed = true)
    (hq : tableRequest w = encode i) : decodeTableWord n w = some i := by
  simp only [decodeTableWord, if_neg hn, hq, decode_encode hw]

/-! ### The obligations -/

/-- Settles O1: each of the four requests is the encoded form of a well-formed command, and decodes to it. -/
theorem commandBitSelectsCommand : Obligations.CommandBitSelectsCommand := by
  refine ⟨fun t ht => ⟨?_, ?_⟩, ?_, ?_⟩
  · exact decode_encode (i := .encode t) ht
  · exact decode_encode (i := .decode t) ht
  · exact decodeTableWord_eq_some (by decide) rfl rfl
  · exact decodeTableWord_eq_some (by decide) rfl rfl

/-- Settles O2: a request is the encoded form of a command, well formed when the operand holds `CHAR`s only. -/
theorem everyCommandWordIsDefined : Obligations.EveryCommandWordIsDefined := by
  intro q hq
  obtain ⟨i, rfl⟩ := exists_encode_eq q
  have hwf : i.wellFormed = true := by rwa [instr_wellFormed_eq, ← encode_input]
  exact ⟨i, decode_encode hwf, (encode_input i).symm⟩

end Sys2Proof.Machine
end

section
/-! The statements of 41_encoder.md: the stages E1 to E6, and ENCODE as their composition. -/

namespace Sys2Proof.Machine

/-! ### The stages -/

/-- Group `g` of a bit string is the index of its bits `3g`, `3g+1` and `3g+2` (R55). -/
theorem getElem?_extractGroups {bits : Bits} {g : Nat} {a b c : Bool} (ha : bits[3 * g]? = some a)
    (hb : bits[3 * g + 1]? = some b) (hc : bits[3 * g + 2]? = some c) :
    (extractGroups bits)[g]? = some (groupIndex a b c) := by
  induction g generalizing bits with
  | zero =>
    match bits, ha, hb, hc with
    | _ :: _ :: _ :: _, rfl, rfl, rfl => rfl
  | succ g ih =>
    match bits, hc with
    | _ :: _ :: _ :: rest, hc => exact ih (bits := rest) ha hb hc

/-- Every symbol that the ROM forward map emits is a ROM entry (R56). -/
theorem exists_romRead_of_mem_mapRom {rom : Vector CHAR 8} {idx : List Index} {c : CHAR} (h : c ∈ mapRom rom idx) :
    ∃ i : Index, c = romRead rom i := by
  obtain ⟨i, _, rfl⟩ := List.mem_map.1 h
  exact ⟨i, rfl⟩

/-- The empty text has no groups and no markers (R60). -/
@[simp] theorem encodeText_nil (rom : Vector CHAR 8) : encodeText rom [] = [] := rfl

/-! ### The command -/

/-- ENCODE delivers the encoded text with status 0 (R58). -/
theorem exec_encode_of_runs {s : State} {t : List CHAR} (h : s.Runs (.encode t)) :
    exec (.encode t) s = .next (s.respond (okResponse (encodeText s.rom t))) :=
  exec_of_runs h

/-- What the served requester reads after ENCODE. -/
theorem exists_rsp_encode_of_runs {s : State} {t : List CHAR} (h : s.Runs (.encode t)) :
    ∃ u, exec (.encode t) s = .next u ∧ (u.port s.serving).rsp = some ⟨0#2, none, encodeText s.rom t⟩ :=
  ⟨_, exec_encode_of_runs h, congrArg Port.rsp (State.port_respond_self s _)⟩

/-- No length limit excludes the empty operand. -/
theorem State.overLimit_nil (s : State) : s.overLimit [] = false := by
  unfold State.overLimit
  cases s.config.maxInLen with
  | none => rfl
  | some n => simp

/-- ENCODE of the empty text executes in every built block. -/
theorem State.runs_encode_nil {s : State} (h : s.built = true) : s.Runs (.encode []) :=
  ⟨h, s.overLimit_nil, rfl⟩

/-! ### The obligations -/

/-- Settles O8: `8n + P` is a multiple of 3 by the choice of `P`. -/
theorem paddingCompletesTheLastGroup : Obligations.PaddingCompletesTheLastGroup := by
  intro bytes bits P
  have hlen : (padBits P bits).length = bits.length + P := by simp [padBits]
  refine ⟨rfl, rfl, ?_, ?_⟩
  · rw [hlen, length_bitString]
  · rw [hlen]
    exact padded_length_mod bits.length

/-- Settles O9: each index is the `groupIndex` of its three bits. -/
theorem groupsAreMsbFirst : Obligations.GroupsAreMsbFirst := by
  intro pbits _
  refine ⟨length_extractGroups pbits, fun g a b c ha hb hc => ?_⟩
  exact ⟨groupIndex a b c, getElem?_extractGroups ha hb hc, groupIndex_toNat a b c⟩

/-- Settles O14: the byte stream is the concatenation of the characters' rows. -/
theorem serialiserFollowsTable : Obligations.SerialiserFollowsTable := by
  intro t ht
  rw [utf8Encode, List.map_flatMap]
  exact List.flatMap_congr fun c hc => utf8EncodeChar_toNat c (List.all_eq_true.1 ht c hc)

/-- Settles O17: the encoded text is the output of the stages, and delivering it is the whole effect. -/
theorem encodeDeliversItsStages : Obligations.EncodeDeliversItsStages := by
  intro s t h bits P idx out q
  have hout : encodeText s.rom t = out := rfl
  have hresp : s.respond q =
      s.setPort s.serving { txn := .idle, rsp := some q, received := (s.port s.serving).received ++ [q] } := rfl
  rw [exec_encode_of_runs h, hout, ← hresp, okResponse]

/-- Settles O18: ENCODE answers with a function of the ROM and the text wherever it runs. -/
theorem encodeNeverFails : Obligations.EncodeNeverFails := by
  rintro _ t s rfl h
  exact exists_rsp_encode_of_runs h

/-- Settles O21: the body comes from the ROM forward map, and the injector appends `ROM[7]` only. -/
theorem encodeStaysInAlphabet : Obligations.EncodeStaysInAlphabet := by
  intro s t h
  obtain ⟨u, hexec, hrsp⟩ := exists_rsp_encode_of_runs h
  exact ⟨u, encodeBody s.rom (utf8Encode t), hexec, hrsp, fun _ hc => exists_romRead_of_mem_mapRom hc⟩

/-- Settles O20: the empty operand is within every limit, and its encoding is empty. -/
theorem encodeOfEmptyTextIsEmpty : Obligations.EncodeOfEmptyTextIsEmpty := by
  intro s hb
  have hrsp := exists_rsp_encode_of_runs (State.runs_encode_nil hb)
  rwa [encodeText_nil] at hrsp

end Sys2Proof.Machine
end

section
/-! The statements of 42_decoder.md: the stages D1 to D5, the rejection of an unknown symbol, and the failure of the round
trip. -/

namespace Sys2Proof.Machine

/-! ### Stage D1: the suffix detector and the body -/

/-- The last symbol decides between no marker and some, the one before it between one and two (R64). -/
theorem detectPadding_append_singleton (rom : Vector CHAR 8) (l : List CHAR) (b : CHAR) :
    detectPadding rom (l ++ [b]) =
      if b = marker rom then (if l.getLast? = some (marker rom) then 2 else 1) else 0 := by
  obtain rfl | ⟨front, a, rfl⟩ := l.eq_nil_or_concat'
  · simp [detectPadding_singleton]
  · rw [List.append_assoc, List.singleton_append, detectPadding_append_pair]
    simp

theorem detectPadding_le_two (rom : Vector CHAR 8) (input : List CHAR) : detectPadding rom input ≤ 2 := by
  simp only [detectPadding]
  split_ifs <;> decide

theorem detectPadding_eq_zero_iff {rom : Vector CHAR 8} {input : List CHAR} :
    detectPadding rom input = 0 ↔ ¬ ∃ pre, input = pre ++ [marker rom] := by
  rw [← List.getLast?_eq_some_iff]
  obtain rfl | ⟨l, b, rfl⟩ := input.eq_nil_or_concat'
  · simp [detectPadding_nil]
  · rw [detectPadding_append_singleton, List.getLast?_concat, Option.some.injEq]
    split_ifs with hb <;> simp [hb]

theorem detectPadding_eq_two_iff {rom : Vector CHAR 8} {input : List CHAR} :
    detectPadding rom input = 2 ↔ ∃ pre, input = pre ++ [marker rom, marker rom] := by
  constructor
  · intro h
    obtain rfl | ⟨l, b, rfl⟩ := input.eq_nil_or_concat'
    · simp [detectPadding_nil] at h
    · rw [detectPadding_append_singleton] at h
      split_ifs at h with hb hl
      · obtain ⟨pre, rfl⟩ := List.getLast?_eq_some_iff.1 hl
        exact ⟨pre, by simp [hb]⟩
      · cases h
  · rintro ⟨pre, rfl⟩
    simp [detectPadding_append_pair]

/-- The values of `P` are 0, 1 and 2, so 1 is what neither of the two other cases is. -/
theorem detectPadding_eq_one_iff {rom : Vector CHAR 8} {input : List CHAR} :
    detectPadding rom input = 1 ↔
      (∃ pre, input = pre ++ [marker rom]) ∧ ¬ ∃ pre, input = pre ++ [marker rom, marker rom] := by
  rw [← detectPadding_eq_two_iff, ← not_not (a := ∃ pre, input = pre ++ [marker rom]), ← detectPadding_eq_zero_iff]
  have := detectPadding_le_two rom input
  omega

/-- The input ends with as many markers as the detector counts. -/
theorem exists_eq_append_replicate_detectPadding (rom : Vector CHAR 8) (input : List CHAR) :
    ∃ body, input = body ++ List.replicate (detectPadding rom input) (marker rom) := by
  obtain h | h | h : detectPadding rom input = 0 ∨ detectPadding rom input = 1 ∨ detectPadding rom input = 2 := by
    have := detectPadding_le_two rom input
    omega
  · exact ⟨input, by simp [h]⟩
  · rw [h]
    exact (detectPadding_eq_one_iff.1 h).1
  · rw [h]
    exact detectPadding_eq_two_iff.1 h

/-- The body and the markers make up the input (R64). -/
theorem bodyOf_append_replicate_detectPadding (rom : Vector CHAR 8) (input : List CHAR) :
    bodyOf rom input ++ List.replicate (detectPadding rom input) (marker rom) = input := by
  obtain ⟨body, hbody⟩ := exists_eq_append_replicate_detectPadding rom input
  have hlen : input.length = body.length + detectPadding rom input := by
    simpa using congrArg List.length hbody
  have htake : bodyOf rom input = body := by
    rw [bodyOf, hlen, Nat.add_sub_cancel]
    conv_lhs => rw [hbody]
    exact List.take_left
  rw [htake, ← hbody]

/-- A symbol that is no marker stands in the body, after the symbols before it. -/
theorem exists_bodyOf_append_cons {rom : Vector CHAR 8} {c : CHAR} (hc : c ≠ marker rom) (pre post : List CHAR) :
    ∃ rest, bodyOf rom (pre ++ c :: post) = pre ++ c :: rest := by
  have hmark : c ∉ List.replicate (detectPadding rom (pre ++ c :: post)) (marker rom) :=
    fun h => hc (List.eq_of_mem_replicate h)
  have hsplit := bodyOf_append_replicate_detectPadding rom (pre ++ c :: post)
  rcases List.append_eq_append_iff.1 hsplit with ⟨l, -, hl⟩ | ⟨l, hbody, hl⟩
  · exact absurd (by simp [hl]) hmark
  · cases l with
    | nil =>
      have hmem : c ∈ c :: post := List.mem_cons_self
      rw [hl] at hmem
      exact absurd hmem hmark
    | cons d rest =>
      obtain ⟨rfl, -⟩ := List.cons_eq_cons.1 hl
      exact ⟨rest, hbody⟩

/-! ### Stage D2: the reverse lookup -/

/-- The lookup goes from the left, and ends at the first symbol that is not in the ROM (R65). -/
theorem lookupSymbols_append_cons_of_miss {rom : Vector CHAR 8} {pre : List CHAR} {c : CHAR}
    (hpre : ∀ d ∈ pre, romSearch rom d ≠ none) (hc : romSearch rom c = none) (post : List CHAR) :
    lookupSymbols rom (pre ++ c :: post) = .error (.invalidSymbol c) := by
  induction pre with
  | nil => simp [lookupSymbols, hc]
  | cons d ds ih =>
    obtain ⟨i, hi⟩ := Option.ne_none_iff_exists'.1 (hpre d List.mem_cons_self)
    have htail := ih fun e he => hpre e (List.mem_cons_of_mem d he)
    simp [lookupSymbols, hi, htail]

/-- DECODE raises InvalidSymbol for the leftmost symbol that is not in the ROM (R73, D10). -/
theorem decodeText_append_cons_of_miss {rom : Vector CHAR 8} {pre : List CHAR} {c : CHAR}
    (hpre : ∀ d ∈ pre, romSearch rom d ≠ none) (hc : romSearch rom c = none) (mode : StripMode) (post : List CHAR) :
    decodeText rom mode (pre ++ c :: post) = .error (.invalidSymbol c) := by
  have hmarker : c ≠ marker rom := fun h => romSearch_eq_none.1 hc 7#3 h.symm
  obtain ⟨rest, hbody⟩ := exists_bodyOf_append_cons hmarker pre post
  simp only [decodeText, hbody, lookupSymbols_append_cons_of_miss hpre hc]

/-! ### Stages D3 to D5: indices, bits and bytes -/

@[simp] theorem length_indexBits (v : Index) : (indexBits v).length = 3 := rfl

theorem getElem?_indexBits (v : Index) {k : Nat} (hk : k < 3) : (indexBits v)[k]? = some (v.getLsbD (2 - k)) := by
  interval_cases k <;> rfl

/-- The group extractor gives the indices back (R45). -/
theorem extractGroups_rebuildBits (idx : List Index) : extractGroups (rebuildBits idx) = idx := by
  simpa [extractGroups] using extractGroups_rebuildBits_append idx []

/-- The packed bytes hold the bits of the input, in order, up to the bits that fill no byte (R68). -/
theorem bitString_packBytes_append_drop (bits : Bits) :
    bitString (packBytes bits) ++ bits.drop (8 * (bits.length / 8)) = bits := by
  have hwhole : (bits.take (8 * (bits.length / 8))).length % 8 = 0 := by
    rw [List.length_take]; omega
  have hrest : (bits.drop (8 * (bits.length / 8))).length < 8 := by
    rw [List.length_drop]; omega
  have hpack : packBytes bits = packBytes (bits.take (8 * (bits.length / 8))) := by
    conv_lhs => rw [← List.take_append_drop (8 * (bits.length / 8)) bits]
    rw [packBytes_append _ _ hwhole, packBytes_eq_nil hrest, List.append_nil]
  rw [hpack, bitString_packBytes _ hwhole, List.take_append_drop]

/-- Bit `7 - k` of packed byte `j` is bit `8j + k` of the input. -/
theorem getElem?_of_getElem?_packBytes {bits : Bits} {j k : Nat} {b : Byte} (hj : (packBytes bits)[j]? = some b)
    (hk : k < 8) : bits[8 * j + k]? = some (b.getLsbD (7 - k)) := by
  have hbit : (bitString (packBytes bits))[8 * j + k]? = some (b.getLsbD (7 - k)) := by
    rw [← getElem?_byteBits b hk]
    exact getElem?_flatMap_of_length_eq length_byteBits hj hk
  obtain ⟨hlt, -⟩ := List.getElem?_eq_some_iff.1 hbit
  rw [← bitString_packBytes_append_drop bits, List.getElem?_append_left hlt, hbit]

/-- A byte is the sum of its bits' weights, the most significant bit first. -/
theorem toNat_eq_sum_getLsbD (b : Byte) :
    b.toNat = ((List.range 8).map fun k => (b.getLsbD (7 - k)).toNat * 2 ^ (7 - k)).sum := by
  revert b; decide

/-! ### The collision of ENCODE -/

/-- A question mark after a UTF-8 length of `2 mod 3` is lost: its first two bits are the padding zeros, and its last six
are the indices of the two markers (R77). -/
theorem encodeText_append_questionMark {rom : Vector CHAR 8} {t : List CHAR} (h : (utf8Encode t).length % 3 = 2) :
    encodeText rom (t ++ [0x3F#21]) = encodeText rom t := by
  have hbytes : utf8Encode (t ++ [0x3F#21]) = utf8Encode t ++ [0x3F#8] := utf8Encode_append _ _
  have hlen : (utf8Encode t ++ [0x3F#8]).length % 3 = 0 := by
    rw [List.length_append, List.length_singleton]; omega
  have hbits : bitString (utf8Encode t ++ [0x3F#8])
      = (bitString (utf8Encode t) ++ List.replicate 2 false) ++ List.replicate 6 true := by
    rw [bitString_append, List.append_assoc]; rfl
  have hpadded : (bitString (utf8Encode t) ++ List.replicate 2 false).length % 3 = 0 := by
    rw [List.length_append, length_bitString, List.length_replicate]; omega
  have hmarkers : (extractGroups (List.replicate 6 true)).map (romRead rom) = List.replicate 2 (marker rom) := rfl
  rw [encodeText_eq, encodeText_eq, hbytes, hlen, h, hbits, List.replicate_zero, List.replicate_zero, List.append_nil,
    List.append_nil, extractGroups_append _ _ hpadded, List.map_append, hmarkers]

/-- Two texts with one encoding leave no function that gives back, of every text, anything that tells texts apart. -/
theorem not_forall_encodeText_recovers {α : Type} (rom : Vector CHAR 8) (g : List CHAR → α) {f : List CHAR → α}
    (hf : f.Injective) : ¬ ∀ x : List CHAR, x.all isChar = true → g (encodeText rom x) = f x := by
  intro h
  have hcollide : encodeText rom ([0x61#21, 0x62#21] ++ [0x3F#21]) = encodeText rom [0x61#21, 0x62#21] :=
    encodeText_append_questionMark (by decide)
  have heq : f ([0x61#21, 0x62#21] ++ [0x3F#21]) = f [0x61#21, 0x62#21] := by
    rw [← h _ (by decide), hcollide, h _ (by decide)]
  exact absurd (hf heq) (by decide)

/-! ### The obligations -/

/-- Settles O10: the rebuilt bits are the concatenation of the indices' blocks of three bits. -/
theorem rebuiltBitsAreMsbFirst : Obligations.RebuiltBitsAreMsbFirst := by
  intro idx
  refine ⟨length_rebuildBits idx, fun g k v hg hk => ?_, extractGroups_rebuildBits idx⟩
  calc (rebuildBits idx)[3 * g + k]?
    _ = (indexBits v)[k]? := getElem?_flatMap_of_length_eq length_indexBits hg hk
    _ = some (v.getLsbD (2 - k)) := getElem?_indexBits v hk

/-- Settles O12: each packed byte's bits are eight bits of the input in a row; a short tail makes no byte. -/
theorem bytePackerIsMsbFirst : Obligations.BytePackerIsMsbFirst := by
  refine ⟨fun sbits => ⟨length_packBytes sbits, fun j hj => ?_⟩, fun sbits tail hwhole htail => ?_⟩
  · have hget := List.getElem?_eq_getElem (hj.trans_eq (length_packBytes sbits).symm)
    refine ⟨_, hget, (toNat_eq_sum_getLsbD _).trans (congrArg List.sum (List.map_congr_left fun k hk => ?_))⟩
    rw [List.getD_eq_getElem?_getD, getElem?_of_getElem?_packBytes hget (List.mem_range.1 hk), Option.getD_some]
  · rw [packBytes_append _ _ hwhole, packBytes_eq_nil htail, List.append_nil]

/-- Settles O25: the three values of `P`, each by the symbols the input ends with. -/
theorem suffixDetectorTakesAtMostTwoMarkers : Obligations.SuffixDetectorTakesAtMostTwoMarkers := by
  intro rom input M
  exact ⟨(bodyOf_append_replicate_detectPadding rom input).symm, detectPadding_eq_two_iff, detectPadding_eq_one_iff,
    detectPadding_eq_zero_iff⟩

/-- Settles O26: an unknown symbol is no marker, so the lookup of the body comes to it. -/
theorem unknownSymbolEndsDecode : Obligations.UnknownSymbolEndsDecode := by
  intro s pre post c hruns hpre hc q
  have hmiss : romSearch s.rom c = none := romSearch_eq_none.2 hc
  have hhit : ∀ d ∈ pre, romSearch s.rom d ≠ none := fun d hd hnone => by
    obtain ⟨i, hi⟩ := hpre d hd
    exact romSearch_eq_none.1 hnone i hi
  have hresp : responseAlone s.rom s.config.stripMode (.decode (pre ++ c :: post)) = q := by
    simp only [responseAlone, decodeText_append_cons_of_miss hhit hmiss]
    rfl
  rw [exec_of_runs hruns, hresp, State.respond]

/-- Settles O32: the collision on a question mark leaves nothing for a decoder to tell the two texts apart by. -/
theorem noDecoderInvertsEncode : Obligations.NoDecoderInvertsEncode := by
  intro rom
  refine ⟨fun t ht => (encodeText_append_questionMark ht).symm, fun mode => ?_, ?_⟩
  · have hok : (Except.ok : List CHAR → Except CodecError (List CHAR)).Injective := fun _ _ => Except.ok.inj
    simpa using not_forall_encodeText_recovers rom (decodeText rom mode) hok
  · rintro ⟨f, hf⟩
    exact not_forall_encodeText_recovers rom f Function.injective_id hf

/-- Settles O11: the bits cut off are those from position `len - K` on. -/
theorem stripRemovesTheLastBits : Obligations.StripRemovesTheLastBits := by
  intro p rbits
  refine ⟨rfl, rfl, fun mode => ⟨rbits.drop (rbits.length - stripCount mode p), ?_, ?_⟩⟩
  · rw [stripBits_eq_take, List.take_append_drop]
  · rw [List.length_drop]
    omega

end Sys2Proof.Machine
end

section
/-! The statements of 60_exceptions.md on the closed taxonomy of responses and on the length limit. -/

namespace Sys2Proof.Machine

/-! ### Texts of characters -/

/-- The reconstructor delivers `CHAR`s only (R69). -/
theorem all_isChar_of_utf8Decode {bytes : List Byte} {text : List CHAR} (h : utf8Decode bytes = some text) :
    text.all isChar = true := by
  induction text generalizing bytes with
  | nil => rfl
  | cons c cs ih =>
    cases bytes with
    | nil => simp [utf8Decode] at h
    | cons b0 rest =>
      obtain ⟨d, tail, text', hd, -, htail, heq⟩ := utf8Decode_cons_eq_some h
      obtain ⟨rfl, rfl⟩ := List.cons_eq_cons.1 heq
      rw [List.all_cons, hd, ih htail, Bool.and_self]

/-- ENCODE writes entries of the ROM, which are `CHAR`s in a built block (R14, R61). -/
theorem all_isChar_encodeText {s : State} (h : s.built = true) (text : List CHAR) :
    (encodeText s.rom text).all isChar = true := by
  rw [List.all_eq_true]
  intro c hc
  obtain ⟨i, rfl⟩ : ∃ i : Index, c = romRead s.rom i := by
    rcases List.mem_append.1 hc with hbody | hmarkers
    · exact exists_romRead_of_mem_mapRom hbody
    · exact ⟨_, List.eq_of_mem_replicate hmarkers⟩
  exact romRead_isChar h i

/-- A text that DECODE returns is the UTF-8 reading of some bytes. -/
theorem exists_utf8Decode_of_decodeText_eq_ok {rom : Vector CHAR 8} {mode : StripMode} {input text : List CHAR}
    (h : decodeText rom mode input = .ok text) : ∃ bytes, utf8Decode bytes = some text := by
  unfold decodeText at h
  split at h
  · cases h
  next idx _ =>
    split at h
    · cases h
    next t ht => exact ⟨_, ht.trans (congrArg some (Except.ok.inj h))⟩

/-- The two errors of DECODE; an InvalidSymbol names a symbol of the input that is not in the ROM. -/
theorem decodeText_eq_error {rom : Vector CHAR 8} {mode : StripMode} {input : List CHAR} {e : CodecError}
    (h : decodeText rom mode input = .error e) :
    e = .invalidUtf8 ∨ ∃ c ∈ input, romSearch rom c = none ∧ e = .invalidSymbol c := by
  unfold decodeText at h
  split at h
  next e' hlookup =>
    obtain ⟨c, hc, rfl, hmiss⟩ := lookupSymbols_eq_error hlookup
    exact .inr ⟨c, List.mem_of_mem_take hc, hmiss, (Except.error.inj h).symm⟩
  · split at h
    · exact .inl (Except.error.inj h).symm
    · cases h

/-! ### The closed taxonomy -/

/-- Every response of a command that executes: an output of `CHAR`s, or, from DECODE only, one of the two errors (R78). -/
theorem responseAlone_cases {i : Instr} {s : State} (h : s.Runs i) :
    (∃ out, out.all isChar = true ∧ responseAlone s.rom s.config.stripMode i = okResponse out) ∨
      ∃ input, i = .decode input ∧
        (responseAlone s.rom s.config.stripMode i = errorResponse .invalidUtf8 ∨
          ∃ c ∈ input, romSearch s.rom c = none ∧
            responseAlone s.rom s.config.stripMode i = errorResponse (.invalidSymbol c)) := by
  cases i with
  | encode text => exact .inl ⟨_, all_isChar_encodeText h.built text, rfl⟩
  | decode input =>
    simp only [responseAlone]
    cases hd : decodeText s.rom s.config.stripMode input with
    | ok text =>
      obtain ⟨bytes, hbytes⟩ := exists_utf8Decode_of_decodeText_eq_ok hd
      exact .inl ⟨text, all_isChar_of_utf8Decode hbytes, rfl⟩
    | error e =>
      refine .inr ⟨input, rfl, ?_⟩
      obtain rfl | ⟨c, hc, hmiss, rfl⟩ := decodeText_eq_error hd
      · exact .inl rfl
      · exact .inr ⟨c, hc, hmiss, rfl⟩

theorem legal_okResponse {out : List CHAR} (h : out.all isChar = true) : (okResponse out).Legal where
  status_ne := by simp [okResponse]
  errsym_iff := by simp [okResponse]
  no_partial hne := absurd rfl hne
  out_chars := h
  errsym_char c hc := by simp [okResponse] at hc

/-- An error response is legal when the symbol it names, if any, is a `CHAR`. -/
theorem legal_errorResponse {e : CodecError} (h : ∀ c ∈ errorSymbol e, isChar c = true) : (errorResponse e).Legal where
  status_ne := by cases e <;> simp [errorResponse, errorStatus]
  errsym_iff := by cases e <;> simp [errorResponse, errorStatus, errorSymbol]
  no_partial _ := rfl
  out_chars := rfl
  errsym_char := h

/-- The operand of a command that executes holds `CHAR`s only (R6). -/
theorem State.Runs.isChar_of_mem {i : Instr} {s : State} (h : s.Runs i) {c : CHAR} (hc : c ∈ i.input) :
    isChar c = true :=
  List.all_eq_true.1 (instr_wellFormed_eq i ▸ h.chars) c hc

/-- A command that executes gets a response the spec allows. -/
theorem legal_responseAlone {i : Instr} {s : State} (h : s.Runs i) :
    (responseAlone s.rom s.config.stripMode i).Legal := by
  obtain ⟨out, hout, hq⟩ | ⟨input, rfl, hq | ⟨c, hc, -, hq⟩⟩ := responseAlone_cases h <;> rw [hq]
  · exact legal_okResponse hout
  · exact legal_errorResponse fun c hc => by cases hc
  · exact legal_errorResponse fun d hd => Option.some.inj hd ▸ h.isChar_of_mem hc

/-- The reported symbol is a char of the operand that is not in the ROM (R80). -/
theorem errsym_responseAlone {i : Instr} {s : State} (h : s.Runs i) {c : CHAR}
    (hc : c ∈ (responseAlone s.rom s.config.stripMode i).errsym) :
    c ∈ i.input ∧ ∀ k : Index, romRead s.rom k ≠ c := by
  obtain ⟨out, -, hq⟩ | ⟨input, rfl, hq | ⟨d, hd, hmiss, hq⟩⟩ := responseAlone_cases h <;> rw [hq] at hc
  · cases hc
  · cases hc
  · obtain rfl : d = c := Option.some.inj hc
    exact ⟨hd, romSearch_eq_none.1 hmiss⟩

/-! ### Refusals -/

theorem State.overLimit_eq_true_iff {s : State} {input : List CHAR} :
    s.overLimit input = true ↔ ∃ n, s.config.maxInLen = some n ∧ n < input.length := by
  unfold State.overLimit
  cases s.config.maxInLen <;> simp

/-- The length is checked before anything else, and nothing else is reported as over-long (R79, R82). -/
theorem State.refusalOf_eq_overLong_iff {s : State} {input : List CHAR} {r : Nat} :
    s.refusalOf input = some (.overLong r) ↔ s.overLimit input = true ∧ s.serving = r := by
  unfold State.refusalOf
  by_cases hl : s.overLimit input = true
  · simp [hl]
  · rw [if_neg hl]
    split_ifs
    · simp [hl]
    · cases firstNonChar input <;> simp [hl]

/-- A command stops exactly with the reason for which its operand is refused. -/
theorem exec_eq_refused_iff {i : Instr} {s : State} {r : Refusal} :
    exec i s = .refused r ↔ s.refusalOf i.input = some r := by
  rcases exec_cases i s with ⟨hruns, he⟩ | ⟨x, hx, he⟩
  · simp [he, State.runs_iff.1 hruns]
  · simp [he, hx]

theorem exec_eq_overLong_iff {i : Instr} {s : State} {r : Nat} :
    exec i s = .refused (.overLong r) ↔ s.overLimit i.input = true ∧ s.serving = r :=
  exec_eq_refused_iff.trans State.refusalOf_eq_overLong_iff

/-! ### The obligations -/

/-- Settles O33: the response delivered is the one the command gets alone, whose three forms are all legal. -/
theorem responsesAreLegal : Obligations.ResponsesAreLegal := by
  intro i s u h
  obtain ⟨hruns, rfl⟩ := exec_eq_next h
  refine ⟨_, congrArg Port.rsp (State.port_respond_self s _), legal_responseAlone hruns,
    fun c hc => errsym_responseAlone hruns hc, ?_⟩
  rintro t rfl
  rfl

/-- Settles O38: the length is the first thing checked, also for a command in flight, and only a limit makes it fail. -/
theorem overLongCommandIsRefused : Obligations.OverLongCommandIsRefused := by
  refine ⟨fun s i n hn hlen => ?_, fun s r q n hn hlen hbusy => ?_, fun s i hnone r hexec => ?_⟩
  · exact exec_eq_overLong_iff.2 ⟨State.overLimit_eq_true_iff.2 ⟨n, hn, hlen⟩, rfl⟩
  · exact serve_of_overLimit hbusy (State.overLimit_eq_true_iff.2 ⟨n, hn, hlen⟩)
  · obtain ⟨n, hn, -⟩ := State.overLimit_eq_true_iff.1 (exec_eq_overLong_iff.1 hexec).1
    rw [hnone] at hn
    cases hn

end Sys2Proof.Machine
end

section
/-! The statement of 70_reset_and_hazards.md about a block whose construction fails its requirement. -/

namespace Sys2Proof.Machine

/-! ### A block that is not built -/

theorem State.built_eq_false_of_alphabetOk {s : State} (h : alphabetOk s.config.alphabet = false) :
    s.built = false := by
  rw [State.built, h, Bool.false_and]

/-- The construction is checked after the length and before the elements of the operand (R82, R91). -/
theorem State.refusalOf_of_not_built {s : State} {input : List CHAR} (hl : s.overLimit input = false)
    (hb : s.built = false) : s.refusalOf input = some .badAlphabet := by
  simp [State.refusalOf, hl, hb]

/-! ### The obligation -/

/-- Settles O37: a bad alphabet leaves the block not built, which every operand within the limit and every step meets; an
operand above the limit is refused before that. -/
theorem badAlphabetRefusesEveryCommand : Obligations.BadAlphabetRefusesEveryCommand := by
  intro s hbad
  have hb : s.built = false := State.built_eq_false_of_alphabetOk hbad
  refine ⟨fun i hl => ?_, fun i hl => ?_, step_of_not_built hb⟩
  · exact exec_eq_refused_iff.2 (State.refusalOf_of_not_built hl hb)
  · exact exec_eq_overLong_iff.2 ⟨hl, rfl⟩

end Sys2Proof.Machine
end

section
/-! The statements of 41_encoder.md section 1 and 42_decoder.md section 1 on UTF-8, and of 20_memory.md and 30_encoding.md
on inverses. -/

namespace Sys2Proof.Machine

/-! ### UTF-8 -/

@[simp] theorem utf8Encode_nil : utf8Encode [] = [] := rfl

@[simp] theorem utf8Encode_cons (c : CHAR) (t : List CHAR) : utf8Encode (c :: t) = utf8EncodeChar c ++ utf8Encode t :=
  List.flatMap_cons

/-- The reconstructor gives a text of `CHAR`s back from its bytes. -/
theorem utf8Decode_utf8Encode {t : List CHAR} (ht : t.all isChar = true) : utf8Decode (utf8Encode t) = some t := by
  induction t with
  | nil => rfl
  | cons c cs ih =>
    rw [List.all_cons, Bool.and_eq_true] at ht
    rw [utf8Encode_cons, utf8Decode_encodeChar_append c ht.1, ih ht.2, Option.map_some]

/-- What the reconstructor accepts is the serialised form of the text it gives. -/
theorem utf8Encode_of_utf8Decode {bytes : List Byte} {t : List CHAR} (h : utf8Decode bytes = some t) :
    utf8Encode t = bytes := by
  induction t generalizing bytes with
  | nil =>
    cases bytes with
    | nil => rfl
    | cons b0 rest =>
      obtain ⟨c, tail, t', -, -, -, ht⟩ := utf8Decode_cons_eq_some h
      cases ht
  | cons c cs ih =>
    cases bytes with
    | nil => cases h
    | cons b0 rest =>
      obtain ⟨d, tail, t', -, hbytes, htail, ht⟩ := utf8Decode_cons_eq_some h
      obtain ⟨rfl, rfl⟩ := List.cons_eq_cons.1 ht
      rw [utf8Encode_cons, ih htail, hbytes]

/-- Texts of `CHAR`s are told apart by their bytes. -/
theorem utf8Encode_injective {x y : List CHAR} (hx : x.all isChar = true) (hy : y.all isChar = true)
    (h : utf8Encode x = utf8Encode y) : x = y := by
  have := utf8Decode_utf8Encode hx
  rw [h, utf8Decode_utf8Encode hy] at this
  exact (Option.some.inj this).symm

theorem length_utf8EncodeChar (c : CHAR) : 1 ≤ (utf8EncodeChar c).length ∧ (utf8EncodeChar c).length ≤ 4 := by
  unfold utf8EncodeChar
  split_ifs <;> simp

/-- Each character takes one to four bytes (R51). -/
theorem length_utf8Encode (t : List CHAR) :
    t.length ≤ (utf8Encode t).length ∧ (utf8Encode t).length ≤ 4 * t.length := by
  induction t with
  | nil => simp
  | cons c cs ih =>
    have hc := length_utf8EncodeChar c
    rw [utf8Encode_cons, List.length_append, List.length_cons]
    omega

theorem utf8Encode_eq_nil_iff {t : List CHAR} : utf8Encode t = [] ↔ t = [] := by
  constructor
  · intro h
    have := (length_utf8Encode t).1
    rw [h] at this
    exact List.length_eq_zero_iff.1 (by simpa using this)
  · rintro rfl
    rfl

/-- The table of R51 has no byte 0xFF. -/
theorem ne_ff_of_mem_utf8Encode {t : List CHAR} (ht : t.all isChar = true) {b : Byte} (hb : b ∈ utf8Encode t) :
    b ≠ 0xFF#8 := by
  obtain ⟨c, hct, hbc⟩ := List.mem_flatMap.1 hb
  have hc : isChar c = true := List.all_eq_true.1 ht c hct
  have hlt : c.toNat ≤ 0x10FFFF := by simp [isChar] at hc; omega
  have hrow := List.mem_map_of_mem (f := BitVec.toNat) hbc
  rw [utf8EncodeChar_toNat c hc] at hrow
  rintro rfl
  dsimp only at hrow
  split_ifs at hrow <;> simp at hrow <;> omega

/-! ### The obligations -/

/-- Settles O15: by induction on the text, one character's bytes at a time. -/
theorem reconstructorInvertsSerialiser : Obligations.ReconstructorInvertsSerialiser := by
  intro bytes text
  constructor
  · exact fun h => ⟨all_isChar_of_utf8Decode h, utf8Encode_of_utf8Decode h⟩
  · rintro ⟨hchars, rfl⟩
    exact utf8Decode_utf8Encode hchars

/-- Settles O16: the bytes are the serialiser's, one to four for each character; the packer makes a byte of every 8 of the
bits that are left. -/
theorem decodedLengthIsBounded : Obligations.DecodedLengthIsBounded := by
  constructor
  · intro bytes text h
    have hlen := length_utf8Encode text
    rw [utf8Encode_of_utf8Decode h] at hlen
    omega
  · intro mode p idx
    rw [rebuildBytes, length_packBytes, stripBits_eq_take, List.length_take, length_rebuildBits, Nat.min_eq_left (by omega)]

/-- Settles O13: the packer takes the bit string byte by byte. -/
theorem bytePackerInvertsBitString : Obligations.BytePackerInvertsBitString := by
  intro bytes
  simpa [packBytes] using packBytes_bitString_append bytes []

/-- Settles O3: the decoder checks the operand, and the command bit tells the two commands apart. -/
theorem decodeEncodeAgree : Obligations.DecodeEncodeAgree := by
  refine ⟨fun i hi => decode_encode hi, fun q i h => ?_⟩
  obtain ⟨rfl, hchars⟩ := decode_eq_ok h
  exact ⟨rfl, by rwa [instr_wellFormed_eq, ← encode_input]⟩

end Sys2Proof.Machine
end

section
/-! The statements of 41_encoder.md section 3 and 30_encoding.md section 3 on the form of an encoded sequence, and of
42_decoder.md section 4 on DECODE after ENCODE. -/

namespace Sys2Proof.Machine

/-! ### The bits of a whole encoded sequence -/

/-- The bits of all the symbols of an encoded sequence, the markers included: the bit string, the `P` zeros of R54, and three
ones for each of the `P` markers of R57, whose index is 7. -/
def wireBits (bytes : List Byte) : Bits :=
  bitString bytes ++ (List.replicate (bytes.length % 3) false ++ List.replicate (3 * (bytes.length % 3)) true)

@[simp] theorem length_wireBits (bytes : List Byte) :
    (wireBits bytes).length = 8 * bytes.length + 4 * (bytes.length % 3) := by
  simp [wireBits]; omega

theorem length_wireBits_mod (bytes : List Byte) : (wireBits bytes).length % 3 = 0 := by
  rw [length_wireBits]; omega

theorem rebuildBits_replicate_marker (p : Nat) : rebuildBits (List.replicate p 7#3) = List.replicate (3 * p) true := by
  induction p with
  | zero => rfl
  | succ p ih => rw [List.replicate_succ, rebuildBits_cons, ih, Nat.mul_succ, Nat.add_comm, List.replicate_add]; rfl

theorem rebuildBits_append (x y : List Index) : rebuildBits (x ++ y) = rebuildBits x ++ rebuildBits y :=
  List.flatMap_append

/-- An encoded sequence is the ROM symbols of the groups of its bits. -/
theorem encodeText_eq_map (rom : Vector CHAR 8) (t : List CHAR) :
    encodeText rom t = (extractGroups (wireBits (utf8Encode t))).map (romRead rom) := by
  have hpad : (bitString (utf8Encode t) ++ List.replicate ((utf8Encode t).length % 3) false).length % 3 = 0 := by
    rw [List.length_append, length_bitString, List.length_replicate]; omega
  rw [wireBits, ← List.append_assoc, extractGroups_append _ _ hpad, ← rebuildBits_replicate_marker,
    extractGroups_rebuildBits, List.map_append, List.map_replicate, encodeText_eq, marker]

theorem wireBits_of_mod_zero {bytes : List Byte} (h : bytes.length % 3 = 0) : wireBits bytes = bitString bytes := by
  simp [wireBits, h]

/-- With two padding zeros and two markers, the bits are those of one more byte, a question mark. -/
theorem wireBits_of_mod_two {bytes : List Byte} (h : bytes.length % 3 = 2) :
    wireBits bytes = bitString (bytes ++ [0x3F#8]) := by
  rw [wireBits, h, bitString_append]; rfl

theorem bitString_injective {x y : List Byte} (h : bitString x = bitString y) : x = y := by
  rw [← bytePackerInvertsBitString x, h, bytePackerInvertsBitString y]

/-- Two byte streams with the same bits on the wire, the first not the longer one. -/
theorem eq_or_eq_append_of_wireBits_eq {x y : List Byte} (hle : x.length ≤ y.length) (h : wireBits x = wireBits y) :
    x = y ∨ (x.length % 3 = 2 ∧ y = x ++ [0x3F#8]) := by
  have hlen := congrArg List.length h
  rw [length_wireBits, length_wireBits] at hlen
  obtain heq | ⟨hx, hy⟩ : x.length = y.length ∨ x.length % 3 = 2 ∧ y.length % 3 = 0 := by omega
  · exact .inl (bitString_injective (List.append_inj_left h (by simp [heq])))
  · rw [wireBits_of_mod_two hx, wireBits_of_mod_zero hy] at h
    exact .inr ⟨hx, (bitString_injective h).symm⟩

/-- The symbols of distinct ROM entries give the bits back. -/
theorem wireBits_eq_of_encodeText_eq {rom : Vector CHAR 8} (hrom : rom.toList.Nodup) {x y : List CHAR}
    (h : encodeText rom x = encodeText rom y) : wireBits (utf8Encode x) = wireBits (utf8Encode y) := by
  rw [encodeText_eq_map, encodeText_eq_map] at h
  exact extractGroups_injective (length_wireBits_mod _) (length_wireBits_mod _)
    (List.map_injective_iff.2 (fun _ _ => romRead_injective hrom) h)

/-- Two texts with the same encoding, the first not the longer one in UTF-8. -/
theorem eq_or_eq_append_of_encodeText_eq {rom : Vector CHAR 8} (hrom : rom.toList.Nodup) {x y : List CHAR}
    (hx : x.all isChar = true) (hy : y.all isChar = true) (hle : (utf8Encode x).length ≤ (utf8Encode y).length)
    (h : encodeText rom x = encodeText rom y) : x = y ∨ ((utf8Encode x).length % 3 = 2 ∧ y = x ++ [0x3F#21]) := by
  obtain heq | ⟨hmod, heq⟩ := eq_or_eq_append_of_wireBits_eq hle (wireBits_eq_of_encodeText_eq hrom h)
  · exact .inl (utf8Encode_injective hx hy heq)
  · refine .inr ⟨hmod, utf8Encode_injective hy (by rw [List.all_append, hx]; rfl) ?_⟩
    rw [heq, utf8Encode_append]; rfl

/-! ### How an encoded sequence ends -/

theorem groupIndex_low_two (b : Byte) :
    groupIndex (b.getLsbD 1) (b.getLsbD 0) false = BitVec.ofNat 3 (2 * (b.toNat % 4)) := by
  revert b; decide

theorem groupIndex_low_one (b : Byte) : groupIndex (b.getLsbD 0) false false = BitVec.ofNat 3 (4 * (b.toNat % 2)) := by
  revert b; decide

theorem groupIndex_low_three (b : Byte) :
    groupIndex (b.getLsbD 2) (b.getLsbD 1) (b.getLsbD 0) = BitVec.ofNat 3 (b.toNat % 8) := by
  revert b; decide

theorem groupIndex_next_three (b : Byte) :
    groupIndex (b.getLsbD 5) (b.getLsbD 4) (b.getLsbD 3) = BitVec.ofNat 3 (b.toNat / 8 % 8) := by
  revert b; decide

theorem ofNat_low_two_ne (b : Byte) : BitVec.ofNat 3 (2 * (b.toNat % 4)) ≠ 7#3 := by revert b; decide

theorem ofNat_low_one_ne (b : Byte) : BitVec.ofNat 3 (4 * (b.toNat % 2)) ≠ 7#3 := by revert b; decide

theorem eq_ff_of_byteBits_eq {b : Byte} : byteBits b = List.replicate 8 true → b = 0xFF#8 := by revert b; decide

section Tail
variable {front : List Byte} {last : Byte}

/-- The groups of an encoded sequence, cut inside the last byte where a whole number of groups ends. -/
theorem extractGroups_wireBits_append {k : Nat} (hk : k ≤ 8) (h : (8 * front.length + k) % 3 = 0) :
    extractGroups (wireBits (front ++ [last])) = extractGroups (bitString front ++ (byteBits last).take k) ++
      extractGroups ((byteBits last).drop k ++ (List.replicate ((front ++ [last]).length % 3) false ++
        List.replicate (3 * ((front ++ [last]).length % 3)) true)) := by
  have hwhole : (bitString front ++ (byteBits last).take k).length % 3 = 0 := by simpa [Nat.min_eq_left hk] using h
  have hbits : bitString (front ++ [last]) = (bitString front ++ (byteBits last).take k) ++ (byteBits last).drop k := by
    rw [bitString_append, List.append_assoc, List.take_append_drop]; simp
  rw [wireBits, hbits, List.append_assoc, extractGroups_append _ _ hwhole]

/-- One padding zero makes the last body symbol even (R47). -/
theorem extractGroups_wireBits_of_mod_one (h : (front ++ [last]).length % 3 = 1) :
    ∃ pre, extractGroups (wireBits (front ++ [last])) = pre ++ [BitVec.ofNat 3 (2 * (last.toNat % 4)), 7#3] := by
  have hcut : (8 * front.length + 6) % 3 = 0 := by rw [List.length_append, List.length_singleton] at h; omega
  exact ⟨_, by rw [extractGroups_wireBits_append (by decide) hcut, h, ← groupIndex_low_two]; rfl⟩

/-- Two padding zeros leave one bit of the last byte in the last body symbol (R47). -/
theorem extractGroups_wireBits_of_mod_two (h : (front ++ [last]).length % 3 = 2) :
    ∃ pre, extractGroups (wireBits (front ++ [last])) = pre ++ [BitVec.ofNat 3 (4 * (last.toNat % 2)), 7#3, 7#3] := by
  have hcut : (8 * front.length + 7) % 3 = 0 := by rw [List.length_append, List.length_singleton] at h; omega
  exact ⟨_, by rw [extractGroups_wireBits_append (by decide) hcut, h, ← groupIndex_low_one]; rfl⟩

/-- Without padding the last two symbols are the low six bits of the last byte (R47). -/
theorem extractGroups_wireBits_of_mod_zero (h : (front ++ [last]).length % 3 = 0) :
    ∃ pre, extractGroups (wireBits (front ++ [last])) =
      pre ++ [BitVec.ofNat 3 (last.toNat / 8 % 8), BitVec.ofNat 3 (last.toNat % 8)] := by
  have hcut : (8 * front.length + 2) % 3 = 0 := by rw [List.length_append, List.length_singleton] at h; omega
  exact ⟨_, by
    rw [extractGroups_wireBits_append (by decide) hcut, h, ← groupIndex_next_three, ← groupIndex_low_three]; rfl⟩

/-- Three symbols of index 7 at the end are nine ones in a row: with padding a zero is among them, without it they hold the
last byte, which would be 0xFF. -/
theorem extractGroups_wireBits_ne_append (hlast : last ≠ 0xFF#8) (pre : List Index) :
    extractGroups (wireBits (front ++ [last])) ≠ pre ++ [7#3, 7#3, 7#3] := by
  intro h
  obtain h1 | h2 | h0 : (front ++ [last]).length % 3 = 1 ∨ (front ++ [last]).length % 3 = 2 ∨
      (front ++ [last]).length % 3 = 0 := by omega
  · obtain ⟨pre', htail⟩ := extractGroups_wireBits_of_mod_one h1
    rw [htail, List.append_cons pre 7#3] at h
    exact ofNat_low_two_ne last (List.cons_eq_cons.1 (List.append_inj_right' h rfl)).1
  · obtain ⟨pre', htail⟩ := extractGroups_wireBits_of_mod_two h2
    rw [htail] at h
    exact ofNat_low_one_ne last (List.cons_eq_cons.1 (List.append_inj_right' h rfl)).1
  · have hnine : rebuildBits [7#3, 7#3, 7#3] = true :: List.replicate 8 true := rfl
    have hbits := congrArg rebuildBits h
    rw [rebuildBits_extractGroups _ (length_wireBits_mod _), wireBits_of_mod_zero h0, bitString_append, rebuildBits_append,
      hnine, List.append_cons] at hbits
    have hlow : byteBits last = List.replicate 8 true := by simpa using List.append_inj_right' hbits rfl
    exact hlast (eq_ff_of_byteBits_eq hlow)

end Tail

/-! ### The padding that the suffix detector finds -/

theorem ofNat_low_three_eq_iff (b : Byte) : BitVec.ofNat 3 (b.toNat % 8) = 7#3 ↔ b.toNat % 8 = 7 := by
  revert b; decide

theorem ofNat_next_three_eq_iff (b : Byte) : BitVec.ofNat 3 (b.toNat / 8 % 8) = 7#3 ↔ b.toNat / 8 % 8 = 7 := by
  revert b; decide

theorem romRead_eq_marker_iff {rom : Vector CHAR 8} (hrom : rom.toList.Nodup) {i : Index} :
    romRead rom i = marker rom ↔ i = 7#3 :=
  ⟨romRead_injective hrom, congrArg (romRead rom)⟩

/-- The Padding Count detected in the encoded sequence of a byte stream (the case split of R75): the markers appended, or,
when none are, the last symbols of the body that are the marker, two at most. -/
def detectedMarkers (bytes : List Byte) : Nat :=
  let last := (bytes.getLastD 0).toNat
  if bytes.length % 3 ≠ 0 then bytes.length % 3
  else if bytes = [] ∨ last % 8 ≠ 7 then 0
  else if last % 64 ≠ 63 then 1
  else 2

theorem detectPadding_map_append_pair {rom : Vector CHAR 8} (hrom : rom.toList.Nodup) (pre : List Index) (i j : Index) :
    detectPadding rom ((pre ++ [i, j]).map (romRead rom)) = if j = 7#3 then (if i = 7#3 then 2 else 1) else 0 := by
  rw [List.map_append, List.map_cons, List.map_singleton, detectPadding_append_pair]
  simp only [romRead_eq_marker_iff hrom]

theorem detectPadding_encodeText {rom : Vector CHAR 8} (hrom : rom.toList.Nodup) (t : List CHAR) :
    detectPadding rom (encodeText rom t) = detectedMarkers (utf8Encode t) := by
  rw [encodeText_eq_map]
  obtain hnil | ⟨front, last, hbytes⟩ := (utf8Encode t).eq_nil_or_concat'
  · rw [hnil]; exact detectPadding_nil rom
  rw [hbytes]
  have hlast : (front ++ [last]).getLastD 0 = last := by simp
  obtain h1 | h2 | h0 : (front ++ [last]).length % 3 = 1 ∨ (front ++ [last]).length % 3 = 2 ∨
      (front ++ [last]).length % 3 = 0 := by omega
  · obtain ⟨pre, htail⟩ := extractGroups_wireBits_of_mod_one h1
    rw [htail, detectPadding_map_append_pair hrom, if_pos rfl, if_neg (ofNat_low_two_ne last), detectedMarkers,
      h1, if_pos (by decide)]
  · obtain ⟨pre, htail⟩ := extractGroups_wireBits_of_mod_two h2
    rw [htail, List.append_cons, detectPadding_map_append_pair hrom, if_pos rfl, if_pos rfl, detectedMarkers, h2,
      if_pos (by decide)]
  · obtain ⟨pre, htail⟩ := extractGroups_wireBits_of_mod_zero h0
    rw [htail, detectPadding_map_append_pair hrom, detectedMarkers, hlast, h0]
    have hne : front ++ [last] ≠ [] := by simp
    simp only [ofNat_low_three_eq_iff, ofNat_next_three_eq_iff, hne, ne_eq, not_true_eq_false, if_false, false_or]
    split_ifs <;> omega

/-- Zeros after the end of a bit string are what reading past its end gives. -/
theorem getElem?_append_replicate_false {bits : Bits} {p i : Nat} (h : i < (bits ++ List.replicate p false).length) :
    (bits ++ List.replicate p false)[i]? = some (bits.getD i false) := by
  rw [List.length_append, List.length_replicate] at h
  by_cases hi : i < bits.length
  · rw [List.getElem?_append_left hi, List.getD_eq_getElem _ _ hi, List.getElem?_eq_getElem hi]
  · rw [List.getElem?_append_right (by omega), List.getElem?_replicate, if_pos (by omega),
      List.getD_eq_default _ _ (by omega)]

/-! ### DECODE after ENCODE -/

/-- Cutting `d` symbols and then the `K` bits of `d` markers off an encoded sequence leaves the first of its bytes, when
the markers of the padding are among the symbols cut. -/
theorem rebuildBytes_wireBits (mode : StripMode) {d : Nat} (bytes : List Byte) (hd : bytes.length % 3 ≤ d) :
    rebuildBytes mode d ((extractGroups (wireBits bytes)).take ((extractGroups (wireBits bytes)).length - d)) =
      bytes.take ((8 * bytes.length + 4 * (bytes.length % 3) - 3 * d - stripCount mode d) / 8) := by
  have hK : d ≤ stripCount mode d := by cases mode <;> simp only [stripCount] <;> omega
  have hlen : 3 * ((extractGroups (wireBits bytes)).length - d) = (wireBits bytes).length - 3 * d := by
    have := length_wireBits_mod bytes
    rw [length_extractGroups]; omega
  rw [rebuildBytes, rebuildBits_take, rebuildBits_extractGroups _ (length_wireBits_mod _), hlen, stripBits_eq_take,
    List.length_take, List.take_take, length_wireBits, Nat.min_eq_left (Nat.sub_le _ _),
    Nat.min_eq_left (Nat.sub_le _ _), wireBits]
  exact packBytes_take_bitString bytes _ _ (by omega)

theorem mod_le_detectedMarkers (bytes : List Byte) : bytes.length % 3 ≤ detectedMarkers bytes := by
  unfold detectedMarkers
  dsimp only
  split_ifs with h <;> omega

/-- The table of R75 as one formula. -/
theorem keptBytes_eq (mode : StripMode) (bytes : List Byte) :
    keptBytes mode bytes = (8 * bytes.length + 4 * (bytes.length % 3) - 3 * detectedMarkers bytes
      - stripCount mode (detectedMarkers bytes)) / 8 := by
  unfold keptBytes detectedMarkers
  simp only [← List.length_eq_zero_iff (l := bytes)]
  cases mode <;> simp only [stripCount] <;> split_ifs <;> omega

/-- DECODE of an encoded text reads the bytes that R75's table keeps. -/
theorem decodeText_encodeText {rom : Vector CHAR 8} (hrom : rom.toList.Nodup) (mode : StripMode) (t : List CHAR) :
    decodeText rom mode (encodeText rom t) =
      match utf8Decode ((utf8Encode t).take (keptBytes mode (utf8Encode t))) with
      | some text => .ok text
      | none => .error .invalidUtf8 := by
  have hbody : bodyOf rom (encodeText rom t) = ((extractGroups (wireBits (utf8Encode t))).take
      ((extractGroups (wireBits (utf8Encode t))).length - detectedMarkers (utf8Encode t))).map (romRead rom) := by
    rw [bodyOf, detectPadding_encodeText hrom, encodeText_eq_map, List.length_map, List.map_take]
  have hbytes := rebuildBytes_wireBits mode _ (mod_le_detectedMarkers (utf8Encode t))
  rw [← keptBytes_eq, ← detectPadding_encodeText hrom] at hbytes
  rw [← detectPadding_encodeText hrom] at hbody
  exact hbytes ▸ decodeText_of_body hrom mode hbody

/-- The text comes back exactly when no byte is lost. -/
theorem decodeText_encodeText_eq_ok_iff {rom : Vector CHAR 8} (hrom : rom.toList.Nodup) (mode : StripMode)
    {t : List CHAR} (ht : t.all isChar = true) :
    decodeText rom mode (encodeText rom t) = .ok t ↔ (utf8Encode t).length ≤ keptBytes mode (utf8Encode t) := by
  rw [← List.take_eq_self_iff, decodeText_encodeText hrom]
  constructor
  · intro h
    split at h
    next text htext =>
      rw [← utf8Encode_of_utf8Decode htext, Except.ok.inj h]
    next => cases h
  · intro h
    rw [h, utf8Decode_utf8Encode ht]

theorem length_le_keptBytes_iff (mode : StripMode) (bytes : List Byte) :
    bytes.length ≤ keptBytes mode bytes ↔
      (bytes = [] ∨ bytes.length % 3 = 0 ∧ (bytes.getLastD 0).toNat % 8 ≠ 7) ∨
        mode = .corrected ∧ bytes.length % 3 ≠ 0 := by
  rw [← List.length_eq_zero_iff (l := bytes)]
  unfold keptBytes
  cases mode <;> simp only [reduceCtorEq, false_and, true_and, or_false] <;> split_ifs <;> omega

/-! ### The obligations -/

/-- Settles O22: a text of whole groups has no padding, and its groups come first. -/
theorem encodeConcatenates : Obligations.EncodeConcatenates := by
  intro rom x y hx
  have hwhole : (bitString (utf8Encode x)).length % 3 = 0 := by rw [length_bitString]; omega
  have hbits : wireBits (utf8Encode (x ++ y)) = bitString (utf8Encode x) ++ wireBits (utf8Encode y) := by
    have hmod : (utf8Encode x ++ utf8Encode y).length % 3 = (utf8Encode y).length % 3 := by
      rw [List.length_append]; omega
    rw [utf8Encode_append, wireBits, hmod, bitString_append, List.append_assoc, wireBits]
  rw [encodeText_eq_map, encodeText_eq_map, encodeText_eq_map, hbits, wireBits_of_mod_zero hx,
    extractGroups_append _ _ hwhole, List.map_append]

/-- Settles O19: the body is the groups of the bit string, which the padding completes with zeros. -/
theorem encodedSequenceHasTheWireFormat : Obligations.EncodedSequenceHasTheWireFormat := by
  intro rom t bits n
  refine ⟨_, encodeText_eq rom t, ?_, fun g hg => ?_⟩
  · rw [List.length_map, length_extractGroups, List.length_append, List.length_replicate, length_bitString]
    omega
  · rw [List.length_map, length_extractGroups] at hg
    have hgroup : (g + 1) * 3 ≤ (bits ++ List.replicate (n % 3) false).length :=
      (Nat.le_div_iff_mul_le (by decide)).1 hg
    have hbit : ∀ k < 3, (bits ++ List.replicate (n % 3) false)[3 * g + k]? = some (bits.getD (3 * g + k) false) :=
      fun k hk => getElem?_append_replicate_false (by omega)
    rw [List.getElem?_map, getElem?_extractGroups (hbit 0 (by decide)) (hbit 1 (by decide)) (hbit 2 (by decide))]
    rfl

/-- Settles O23: the last symbols are groups of the last byte's low bits, the padding zeros and the markers. -/
theorem encodedTailIsAsSpecified : Obligations.EncodedTailIsAsSpecified := by
  intro s t front last hb ht hbytes n M
  obtain ⟨_, _, hrom⟩ := State.built_iff.1 hb
  have hlast : last ≠ 0xFF#8 := ne_ff_of_mem_utf8Encode ht (by simp [hbytes])
  have hn : n = (front ++ [last]).length := congrArg List.length hbytes
  rw [hn, encodeText_eq_map, hbytes]
  refine ⟨fun h => ?_, fun h => ?_, fun h => ?_, fun pre h => ?_⟩
  · obtain ⟨pre, htail⟩ := extractGroups_wireBits_of_mod_one h
    exact ⟨_, by rw [htail, List.map_append]; rfl⟩
  · obtain ⟨pre, htail⟩ := extractGroups_wireBits_of_mod_two h
    exact ⟨_, by rw [htail, List.map_append]; rfl⟩
  · obtain ⟨pre, htail⟩ := extractGroups_wireBits_of_mod_zero h
    exact ⟨_, by rw [htail, List.append_cons, List.map_append]; rfl⟩
  · obtain ⟨pre', markers, htail, -, hmarkers⟩ := List.map_eq_append_iff.1 h
    obtain rfl : markers = [7#3, 7#3, 7#3] :=
      List.map_injective_iff.2 (fun _ _ => romRead_injective hrom) (hmarkers : _ = [7#3, 7#3, 7#3].map (romRead s.rom))
    exact extractGroups_wireBits_ne_append hlast pre' htail

/-- Settles O24: equal encodings have equal bits, whose lengths leave the same number of bytes, or one byte more against two
padding zeros and two markers. -/
theorem encodeCollidesOnlyOnQuestionMark : Obligations.EncodeCollidesOnlyOnQuestionMark := by
  intro s x y hb hx hy
  obtain ⟨_, _, hrom⟩ := State.built_iff.1 hb
  constructor
  · intro h
    obtain hle | hle := Nat.le_total (utf8Encode x).length (utf8Encode y).length
    · obtain heq | hmark := eq_or_eq_append_of_encodeText_eq hrom hx hy hle h
      · exact .inl heq
      · exact .inr (.inl hmark)
    · obtain heq | hmark := eq_or_eq_append_of_encodeText_eq hrom hy hx hle h.symm
      · exact .inl heq.symm
      · exact .inr (.inr hmark)
  · rintro (rfl | ⟨hmod, rfl⟩ | ⟨hmod, rfl⟩)
    · rfl
    · exact (encodeText_append_questionMark hmod).symm
    · exact encodeText_append_questionMark hmod

/-- Settles O30: the padding detected and the bits stripped leave the first of the text's bytes, as many as the table
says. -/
theorem decodeAfterEncodeKeepsAPrefix : Obligations.DecodeAfterEncodeKeepsAPrefix := by
  intro s mode x hb _
  obtain ⟨_, _, hrom⟩ := State.built_iff.1 hb
  exact decodeText_encodeText hrom mode x

/-- Settles O31: a text comes back exactly when R75's table keeps all its bytes. -/
theorem roundTripHoldsExactlyWhen : Obligations.RoundTripHoldsExactlyWhen := by
  intro s x hb hx n kept
  obtain ⟨_, _, hrom⟩ := State.built_iff.1 hb
  have hkept (mode : StripMode) :
      decodeText s.rom mode (encodeText s.rom x) = .ok x ↔ kept ∨ mode = .corrected ∧ n % 3 ≠ 0 := by
    rw [decodeText_encodeText_eq_ok_iff hrom mode hx, length_le_keptBytes_iff, utf8Encode_eq_nil_iff]
  exact ⟨by simpa using hkept .reference, by simpa using hkept .corrected⟩

end Sys2Proof.Machine
end

section
/-! The statements of 42_decoder.md sections 1 to 3 on DECODE as the composition of its stages. -/

namespace Sys2Proof.Machine

/-! ### The response -/

/-- DECODE of a body of ROM symbols: the response is decided by the reconstructor alone. -/
theorem responseAlone_decode_of_body {rom : Vector CHAR 8} (hrom : rom.toList.Nodup) (mode : StripMode)
    {input : List CHAR} {idx : List Index} (hbody : bodyOf rom input = idx.map (romRead rom)) :
    responseAlone rom mode (.decode input) =
      match utf8Decode (rebuildBytes mode (detectPadding rom input) idx) with
      | some text => okResponse text
      | none => errorResponse .invalidUtf8 := by
  rw [responseAlone, decodeText_of_body hrom mode hbody]
  cases utf8Decode (rebuildBytes mode (detectPadding rom input) idx) <;> rfl

/-- DECODE of the empty input executes in every built block. -/
theorem State.runs_decode_nil {s : State} (h : s.built = true) : s.Runs (.decode []) :=
  ⟨h, s.overLimit_nil, rfl⟩

/-! ### An input of markers only -/

theorem detectPadding_replicate_marker (rom : Vector CHAR 8) (k : Nat) :
    detectPadding rom (List.replicate k (marker rom)) = min k 2 := by
  match k with
  | 0 => exact detectPadding_nil rom
  | 1 => rw [List.replicate_one, detectPadding_singleton, if_pos rfl]; rfl
  | k + 2 =>
    rw [List.replicate_add, Nat.min_eq_right (by omega)]
    exact detectPadding_eq_two_iff.2 ⟨_, rfl⟩

theorem bodyOf_replicate_marker (rom : Vector CHAR 8) (k : Nat) :
    bodyOf rom (List.replicate k (marker rom)) = (List.replicate (k - 2) 7#3).map (romRead rom) := by
  rw [bodyOf, detectPadding_replicate_marker, List.length_replicate, List.take_replicate, List.map_replicate, marker]
  congr 1
  omega

/-- Bits that are all ones make bytes that are all 0xFF. -/
theorem mem_packBytes_replicate_true {m : Nat} {b : Byte} (hb : b ∈ packBytes (List.replicate m true)) : b = 0xFF#8 := by
  match m with
  | 0 | 1 | 2 | 3 | 4 | 5 | 6 | 7 => simp [packBytes] at hb
  | m + 8 =>
    obtain rfl | hb := List.mem_cons.1 hb
    · rfl
    · exact mem_packBytes_replicate_true hb

/-- No first byte is 0xFF (R69). -/
theorem utf8Decode_of_all_ff {bytes : List Byte} (h : ∀ b ∈ bytes, b = 0xFF#8) :
    utf8Decode bytes = if bytes.length = 0 then some [] else none := by
  cases bytes with
  | nil => rfl
  | cons b rest =>
    obtain rfl := h b List.mem_cons_self
    rfl

/-- The bytes of `k` markers: the first two at most are taken for padding, the others are ones. -/
theorem utf8Decode_rebuildBytes_replicate (mode : StripMode) (k : Nat) :
    utf8Decode (rebuildBytes mode (min k 2) (List.replicate (k - 2) 7#3)) = if k ≤ 5 then some [] else none := by
  rw [rebuildBytes, rebuildBits_replicate_marker, stripBits_eq_take, List.length_replicate, List.take_replicate,
    utf8Decode_of_all_ff fun b hb => mem_packBytes_replicate_true hb, length_packBytes, List.length_replicate]
  refine if_congr ?_ rfl rfl
  cases mode <;> simp only [stripCount] <;> omega

/-! ### The obligations -/

/-- Settles O27: the stages D3 to D6 written out, and delivering their response is the whole effect. -/
theorem decodeOfRomSymbols : Obligations.DecodeOfRomSymbols := by
  intro s input idx hruns hbody K rbits rbytes q
  obtain ⟨_, _, hrom⟩ := State.built_iff.1 hruns.built
  have hbytes : rebuildBytes s.config.stripMode (detectPadding s.rom input) idx = rbytes := rfl
  have hq : responseAlone s.rom s.config.stripMode (.decode input) = q := by
    rw [responseAlone_decode_of_body hrom _ hbody, hbytes]
    cases hd : utf8Decode rbytes <;> simp only [q, hd] <;> rfl
  rw [exec_of_runs hruns, hq, State.respond]

/-- Settles O29: six markers are the first that leave eight bits, and a byte of ones is ill-formed. -/
theorem decodeOfMarkersOnly : Obligations.DecodeOfMarkersOnly := by
  intro s mode k hb
  obtain ⟨_, _, hrom⟩ := State.built_iff.1 hb
  have hdecode := utf8Decode_rebuildBytes_replicate mode k
  rw [← detectPadding_replicate_marker s.rom] at hdecode
  rw [decodeText_of_body hrom mode (bodyOf_replicate_marker s.rom k), hdecode]
  split_ifs <;> rfl

/-- Settles O28: the empty input is within every limit, and it is an input of no markers. -/
theorem decodeOfEmptyInputIsEmpty : Obligations.DecodeOfEmptyInputIsEmpty := by
  intro s hb
  have htext : decodeText s.rom s.config.stripMode [] = .ok [] := decodeOfMarkersOnly s _ 0 hb
  have hq : responseAlone s.rom s.config.stripMode (.decode []) = ⟨0#2, none, []⟩ := by
    rw [responseAlone, htext]; rfl
  refine ⟨_, exec_of_runs (State.runs_decode_nil hb), ?_⟩
  rw [State.port_respond_self, hq]

end Sys2Proof.Machine
end

section
/-! The statements of 20_memory.md section 3 and 60_exceptions.md section 3: what a response depends on. -/

namespace Sys2Proof.Machine

/-- What the served requester reads after a command that executes. -/
theorem exists_rsp_of_runs {i : Instr} {s : State} (h : s.Runs i) :
    ∃ u, exec i s = .next u ∧ (u.port s.serving).rsp = some (responseAlone s.rom s.config.stripMode i) :=
  ⟨_, exec_of_runs h, congrArg Port.rsp (State.port_respond_self s _)⟩

/-! ### The obligations -/

/-- Settles O35: the response is a function of the command, the ROM and STRIP_MODE. -/
theorem responseDependsOnRomAndModeOnly : Obligations.ResponseDependsOnRomAndModeOnly := by
  intro i s s' hrom hmode hs hs'
  obtain ⟨u, hu, hrsp⟩ := exists_rsp_of_runs hs
  obtain ⟨u', hu', hrsp'⟩ := exists_rsp_of_runs hs'
  exact ⟨u, u', hu, hu', by rw [hrsp, hrsp', hrom, hmode]⟩

/-- Settles O36: a response changes neither the ROM nor the configuration, on which the next command depends. -/
theorem nextCommandIgnoresEarlierError : Obligations.NextCommandIgnoresEarlierError := by
  intro i j s u hexec hj
  obtain ⟨_, rfl⟩ := exec_eq_next hexec
  obtain ⟨v, hv, hrsp⟩ := exists_rsp_of_runs hj
  obtain ⟨w, hw, hrsp'⟩ := exists_rsp_of_runs (State.runs_respond.2 hj)
  exact ⟨by simp [State.isIdle], v, w, hv, hw, hrsp'.trans hrsp.symm⟩

end Sys2Proof.Machine
end

section
/-! The statements of 10_state.md section 5, 60_exceptions.md section 5 and 70_reset_and_hazards.md section 1: what one step
performs, and what it can do to a requester. -/

namespace Sys2Proof.Machine

/-! ### Possible events -/

/-- A step of a built block performs one of the possible events, only the counter of the free choice having changed. -/
theorem step_eq_perform {s : State} (hb : s.built = true) (hc : s.candidates ≠ []) :
    ∃ a ∈ s.candidates, ∃ n, step s = perform a { s with choices := n } := by
  obtain ⟨a, rest, hcand⟩ := List.exists_cons_of_ne_nil hc
  obtain ⟨hmem, n, hn⟩ := s.choose_mem a rest
  exact ⟨_, hcand ▸ hmem, n, by rw [step_of_candidates hb hcand, hn]⟩

/-- A step of a built block with one possible event performs it. -/
theorem step_of_candidates_singleton {s : State} (hb : s.built = true) {a : Action} (hc : s.candidates = [a]) :
    step s = perform a s :=
  step_of_candidates hb hc

theorem State.candidates_of_quiet {s : State} (h : s.Quiet) : s.candidates = [] := by
  obtain ⟨hinputs, hflight⟩ := h
  simp [State.candidates, State.inputActions, State.completions, hinputs, hflight]

/-- With nothing in flight, the request of an IDLE requester can be accepted and nothing else can happen. -/
theorem State.candidates_of_idle_request {s : State} {r : Nat} {q : Request} {rest : List Input}
    (hinputs : s.inputs = .request r q :: rest) (hidle : (s.port r).txn = .idle) (hflight : s.inFlight = []) :
    s.candidates = [.accept r q] := by
  simp [State.candidates, State.inputActions, State.completions, State.isIdle, hinputs, hidle, hflight]

/-- A built block at rest stays as it is. -/
theorem step_of_quiet {s : State} (hb : s.built = true) (h : s.Quiet) : step s = .next s :=
  step_of_idle hb (State.candidates_of_quiet h) h.2

/-- Only a built block has a command in flight that can be completed. -/
theorem State.built_of_mem_completions {s : State} {a : Action} (h : a ∈ s.completions) : s.built = true := by
  obtain ⟨_, _, _, _, hadmits⟩ := State.mem_completions h
  obtain ⟨_, _, hruns⟩ := State.admits_iff.1 hadmits
  exact hruns.built

/-- Completing a requester's command is the only kind of possible event that completes anything. -/
theorem State.mem_completions_of_mem_candidates {s : State} {r : Nat} (h : Action.complete r ∈ s.candidates) :
    Action.complete r ∈ s.completions := by
  rcases List.mem_append.1 h with hinput | hcompletion
  · obtain ⟨ha, _⟩ | ⟨_, _, ha, _⟩ := State.mem_inputActions hinput <;> cases ha
  · exact hcompletion

/-! ### The word that is placed -/

/-- Requester 0 is the first in the list once it is written, and the others are not changed. -/
theorem portPut_zero (p : Port) (l : List (Nat × Port)) : ∃ l', portPut 0 p l = (0, p) :: l' ∧ l' <:+ l := by
  match l with
  | [] => exact ⟨[], rfl, List.suffix_rfl⟩
  | (0, q) :: rest => exact ⟨rest, by simp [portPut], List.suffix_cons _ _⟩
  | (k + 1, q) :: rest => exact ⟨_, by simp [portPut], List.suffix_rfl⟩

/-- A request accepted from requester 0 when nothing is in flight is the only one in flight. -/
theorem inFlight_accept_zero {s : State} (h : s.inFlight = []) (q : Request) : (s.accept 0 q).inFlight = [(0, q)] := by
  obtain ⟨l', hports, hsuffix⟩ := portPut_zero { txn := .busy q, rsp := none, received := (s.port 0).received } s.ports
  have hrest : l'.filterMap (fun e => (txnRequest e.2.txn).map fun q => (e.1, q)) = [] :=
    List.sublist_nil.1 (h ▸ hsuffix.sublist.filterMap _)
  rw [State.inFlight, State.accept, State.setPort_ports, hports, List.filterMap_cons, hrest]
  rfl

/-- With one command in flight and nothing presented a step of a built block serves its requester. -/
theorem step_of_inFlight_singleton {s : State} (hb : s.built = true) {r : Nat} {q : Request}
    (hflight : s.inFlight = [(r, q)]) (hinputs : s.inputs = []) : step s = serve r s := by
  have hcand : s.candidates = if s.admits q then [.complete r] else [] := by
    by_cases ha : s.admits q = true <;>
      simp [State.candidates, State.inputActions, State.completions, hinputs, hflight, ha]
  by_cases ha : s.admits q = true
  · rw [if_pos ha] at hcand
    exact step_of_candidates_singleton hb hcand
  · rw [if_neg ha] at hcand
    exact step_of_refused hb hcand hflight

/-- A table word that decodes is a command with the empty operand. -/
theorem decode_of_decodeTableWord {n w : Nat} {i : Instr} (h : decodeTableWord n w = some i) :
    decode (tableRequest w) = .ok i := by
  unfold decodeTableWord at h
  split at h
  · cases h
  · cases hd : decode (tableRequest w) with
    | error e => rw [hd] at h; cases h
    | ok j => rw [hd] at h; exact congrArg _ (Option.some.inj h)

/-! ### Serving -/

/-- Serving a requester whose command executes delivers the response it gets alone. -/
theorem serve_of_runs {s : State} {r : Nat} {q : Request} {i : Instr} (hbusy : (s.port r).txn = .busy q)
    (hd : decode q = .ok i) (hruns : s.Runs i) :
    serve r s = .next (({ s with serving := r } : State).respond (responseAlone s.rom s.config.stripMode i)) := by
  rw [serve_of_busy hbusy hd]
  exact exec_of_runs (s := { s with serving := r }) ⟨hruns.built, hruns.within, hruns.chars⟩

theorem serve_of_idle {s : State} {r : Nat} (h : (s.port r).txn = .idle) : serve r s = .next s := by
  simp only [serve, h]

/-- Serving one requester leaves the others alone. -/
theorem port_of_serve_of_ne {s t : State} {r k : Nat} (h : serve r s = .next t) (hk : k ≠ r) : t.port k = s.port k := by
  obtain ⟨_, rfl⟩ | ⟨q, i, _, _, _, rfl⟩ := serve_eq_next h
  · rfl
  · exact State.port_respond_of_ne _ _ hk

/-- The responses to two requesters commute, up to `serving`. -/
theorem respond_respond_comm {r k : Nat} (h : r ≠ k) (s : State) (p q : Response) :
    let a := ({ s with serving := r } : State).respond p
    let c := ({ s with serving := k } : State).respond q
    { ({ c with serving := r } : State).respond p with serving := k } = ({ a with serving := k } : State).respond q := by
  intro a c
  have ha : ({ a with serving := k } : State).port k = s.port k := State.port_respond_of_ne _ p h.symm
  have hc : ({ c with serving := r } : State).port r = s.port r := State.port_respond_of_ne _ q h
  simp only [State.respond, State.setPort] at ha hc ⊢
  rw [ha, hc]
  exact congrArg (fun l => ({ s with ports := l, serving := k } : State)) (portPut_comm h _ _ s.ports)

/-! ### The obligations -/

/-- Settles O41: the chosen event is one of the list; a quiet block has none; a block that is not built has no step. -/
theorem stepPerformsOnePossibleEvent : Obligations.StepPerformsOnePossibleEvent :=
  ⟨fun _ hb hc => step_eq_perform hb hc, fun _ _ _ _ hbusy hd => serve_of_busy hbusy hd,
    fun _ hb hquiet => step_of_quiet hb hquiet, fun _ hb => step_of_not_built hb⟩

/-- Settles O39: a possible completion is one of a built block, whose step performs it. -/
theorem stepRunsDecodedCommand : Obligations.StepRunsDecodedCommand := by
  intro s r q i hcand hbusy hd
  have hmem : Action.complete r ∈ s.candidates := hcand ▸ List.mem_singleton_self _
  have hb := State.built_of_mem_completions (State.mem_completions_of_mem_candidates hmem)
  rw [step_of_candidates_singleton hb hcand]
  exact serve_of_busy hbusy hd

/-- Settles O40: the placed command is the only one in flight, so the step of a built block serves it; a block that is not
built refuses the step and the empty operand alike. -/
theorem fetchWordRunsNext : Obligations.FetchWordRunsNext := by
  intro s nbits w i h
  have hd := decode_of_decodeTableWord h
  have hbusy : ((s.withFetchWord nbits w).port 0).txn = .busy (tableRequest w) := by
    rw [State.withFetchWord, presentAlone, State.port_accept_self]
  have hflight : (s.withFetchWord nbits w).inFlight = [(0, tableRequest w)] :=
    inFlight_accept_zero (inFlight_applyReset s) _
  cases hb : (s.withFetchWord nbits w).built with
  | true => rw [step_of_inFlight_singleton hb hflight rfl, serve_of_busy hbusy hd]
  | false =>
    have hinput : i.input = [] := by rw [← encode_input, (decode_eq_ok hd).1]; rfl
    rw [step_of_not_built hb]
    have hlimit : (s.withFetchWord nbits w).overLimit i.input = false := hinput ▸ State.overLimit_nil _
    exact (exec_eq_refused_iff (s := { s.withFetchWord nbits w with serving := 0 }).2
      (State.refusalOf_of_not_built hlimit hb)).symm

/-- Settles O42: the inversion of a step, read for one requester. -/
theorem requesterMovesBetweenIdleAndBusy : Obligations.RequesterMovesBetweenIdleAndBusy := by
  intro s t r hinv h
  obtain ⟨_, _, rfl⟩ | ⟨n, hinputs, rfl⟩ | ⟨n, k, q, hidle, hinputs, rfl⟩ | ⟨n, k, rfl, _⟩ |
    ⟨n, k, q, i, hbusy, hd, hruns, rfl⟩ := step_eq_next h
  · exact .inl rfl
  · refine .inr (.inr (.inr ⟨hinputs, ?_⟩))
    exact port_applyReset (s := { s with inputs := s.inputs.tail, choices := n }) hinv.rising r
  · by_cases hr : r = k
    · subst hr
      exact .inr (.inl ⟨q, hidle, hinputs, State.port_accept_self _ _ _⟩)
    · exact .inl (State.port_accept_of_ne _ _ hr)
  · exact .inl rfl
  · by_cases hr : r = k
    · subst hr
      exact .inr (.inr (.inl ⟨q, i, hbusy, hd, hruns, State.port_respond_self _ _⟩))
    · exact .inl (State.port_respond_of_ne _ _ hr)

/-- Settles O43: a reset makes every listed requester IDLE, so nothing is in flight and a request can be accepted. -/
theorem resetAbandonsCommandsInFlight : Obligations.ResetAbandonsCommandsInFlight := by
  intro s hinv
  refine ⟨State.applyReset_rom s, State.applyReset_config s, port_applyReset hinv.rising, inFlight_applyReset s, ?_, rfl,
    ?_⟩
  · intro rest r q
    have hidle : (s.applyReset.port r).txn = .idle := congrArg Port.txn (port_applyReset hinv.rising r)
    exact State.candidates_of_idle_request rfl hidle (inFlight_applyReset s)
  · intro hb hcand
    refine ⟨_, step_of_candidates_singleton hb hcand, rfl, rfl, rfl, ?_⟩
    exact port_applyReset (s := { s with inputs := s.inputs.tail }) hinv.rising

/-- Settles O47: each of the two requesters is served with the response it gets alone, and the two ports are written
independently. -/
theorem servingOrderIsNotObservable : Obligations.ServingOrderIsNotObservable := by
  intro s a b r k hrk ha hb
  have hak := port_of_serve_of_ne ha hrk.symm
  obtain ⟨hr, rfl⟩ | ⟨q, i, hr, hd, hruns, rfl⟩ := serve_eq_next ha
  · refine ⟨b, b, hb, serve_of_idle ?_, rfl⟩
    rw [port_of_serve_of_ne hb hrk, hr]
  · obtain ⟨hk, rfl⟩ | ⟨q', j, hk, hd', hruns', rfl⟩ := serve_eq_next hb
    · exact ⟨s, _, serve_of_idle (by rw [← hak, hk]), ha, rfl⟩
    · rw [hak] at hk
      have hc := serve_of_runs hk hd' (s := s) ⟨hruns'.built, hruns'.within, hruns'.chars⟩
      refine ⟨_, _, hc, serve_of_runs ?_ hd ⟨hruns.built, hruns.within, hruns.chars⟩, ?_⟩
      · rw [port_of_serve_of_ne hc hrk, hr]
      · exact respond_respond_comm hrk s _ _

end Sys2Proof.Machine
end

section
/-! The statements of 10_state.md section 7 and 70_reset_and_hazards.md section 1 on the invariant: it holds of every
constructed block, and every step keeps it. -/

namespace Sys2Proof.Machine

/-! ### The invariant, port by port -/

/-- What the invariant asks of each listed requester by itself. -/
structure Port.Ok (p : Port) : Prop where
  ne_fresh : p ≠ Port.fresh
  no_stale : p.txn ≠ .idle → p.rsp = none
  rsp_last : ∀ q ∈ p.rsp, p.received.getLast? = some q
  legal : ∀ q ∈ p.received, q.Legal

theorem Port.ok_busy {l : List Response} (hl : ∀ a ∈ l, a.Legal) {q : Request} :
    Port.Ok { txn := .busy q, rsp := none, received := l } where
  ne_fresh := by simp [Port.fresh]
  no_stale _ := rfl
  rsp_last _ ha := by cases ha
  legal := hl

theorem Port.ok_answered {l : List Response} (hl : ∀ a ∈ l, a.Legal) {q : Response} (hq : q.Legal) :
    Port.Ok { txn := .idle, rsp := some q, received := l ++ [q] } where
  ne_fresh := by simp [Port.fresh]
  no_stale hne := absurd rfl hne
  rsp_last a ha := by
    obtain rfl := Option.some.inj ha
    exact List.getLast?_concat
  legal a ha := by
    obtain ha | ha := List.mem_append.1 ha
    · exact hl a ha
    · obtain rfl := List.mem_singleton.1 ha
      exact hq

theorem inv_iff {s : State} : Inv s ↔ (s.ports.map Prod.fst).Pairwise (· < ·) ∧ ∀ e ∈ s.ports, e.2.Ok :=
  ⟨fun h => ⟨h.rising, fun e he => ⟨h.listed e he, h.no_stale e he, h.rsp_last e he, h.legal e he⟩⟩,
    fun ⟨hrising, hok⟩ => ⟨hrising, fun e he => (hok e he).ne_fresh, fun e he => (hok e he).no_stale,
      fun e he => (hok e he).rsp_last, fun e he => (hok e he).legal⟩⟩

/-- Writing one requester keeps the invariant when what is written meets it. -/
theorem Inv.setPort {s : State} (h : Inv s) {p : Port} (hp : p.Ok) (r : Nat) : Inv (s.setPort r p) := by
  obtain ⟨hrising, hok⟩ := inv_iff.1 h
  refine inv_iff.2 ⟨portPut_rising r p hrising, fun e he => ?_⟩
  obtain rfl | ⟨he, _⟩ := mem_portPut hrising he
  · exact hp
  · exact hok e he

/-- Every response delivered to a requester is legal, listed or not. -/
theorem Inv.legal_received {s : State} (h : Inv s) (r : Nat) : ∀ q ∈ (s.port r).received, q.Legal := by
  rcases portGet_cases r s.ports with hfresh | hmem
  · rw [State.port, hfresh]
    intro q hq
    cases hq
  · exact h.legal _ hmem

theorem Inv.accept {s : State} (h : Inv s) (r : Nat) (q : Request) : Inv (s.accept r q) :=
  h.setPort (Port.ok_busy (h.legal_received r)) r

theorem Inv.respond {s : State} (h : Inv s) {q : Response} (hq : q.Legal) : Inv (s.respond q) :=
  h.setPort (Port.ok_answered (h.legal_received s.serving) hq) s.serving

theorem Inv.applyReset {s : State} (h : Inv s) : Inv s.applyReset := by
  refine inv_iff.2 ⟨applyReset_rising h.rising, fun e he => ?_⟩
  obtain ⟨⟨p, hp, heq⟩, hne⟩ := mem_applyReset_ports.1 he
  rw [heq] at hne ⊢
  exact ⟨hne, fun _ => rfl, fun a ha => (by cases ha), h.legal _ hp⟩

/-! ### A constructed block -/

theorem toList_romOf {a : List CHAR} (h : a.length = 8) : (romOf a).toList = a := by
  refine List.ext_getElem (by simp [h]) fun n _ hn => ?_
  simp [romOf_eq_ofFn, hn]

/-- A constructed block's ROM holds its alphabet, so only the alphabet decides whether it is built (R91). -/
theorem built_construct_iff (c : Config) : (State.construct c).built = true ↔ alphabetOk c.alphabet = true := by
  simp only [State.built, State.construct, Bool.and_eq_true, and_iff_left_iff_imp]
  exact fun hok => decide_eq_true (toList_romOf (alphabetOk_iff.1 hok).1)

theorem inv_construct (c : Config) : Inv (State.construct c) :=
  inv_iff.2 ⟨List.Pairwise.nil, fun _ he => (by cases he)⟩

/-! ### The obligations -/

/-- Settles O45: a constructed block lists no requester, and an alphabet of 8 entries fills the ROM. -/
theorem constructedBlockHasInvariant : Obligations.ConstructedBlockHasInvariant :=
  ⟨fun c => ⟨inv_construct c, built_construct_iff c⟩, inv_construct _, (built_construct_iff _).2 (by decide)⟩

/-- Settles O46: each thing a step can do keeps the invariant; a response is the one a command that executes gets, which is
legal. -/
theorem stepKeepsInvariant : Obligations.StepKeepsInvariant := by
  intro s t hinv h
  obtain ⟨_, _, rfl⟩ | ⟨n, _, rfl⟩ | ⟨n, r, q, _, _, rfl⟩ | ⟨n, r, rfl, _⟩ | ⟨n, r, q, i, _, _, hruns, rfl⟩ :=
    step_eq_next h
  case inl => exact hinv
  case inr.inl => exact Inv.applyReset (hinv.congr rfl)
  case inr.inr.inl =>
    refine Inv.accept ?_ r q
    exact hinv.congr rfl
  case inr.inr.inr.inl => exact hinv.congr rfl
  case inr.inr.inr.inr =>
    refine Inv.respond ?_ (legal_responseAlone hruns)
    exact hinv.congr rfl

end Sys2Proof.Machine
end

section
/-! The statements of 70_reset_and_hazards.md section 3: the machine comes to rest, every command answered as if alone. -/

namespace Sys2Proof.Machine

/-! ### What is left to do -/

theorem State.work_applyReset_le (s : State) : s.applyReset.work ≤ s.work := by
  rw [State.work, State.work, inFlight_applyReset]
  exact Nat.add_le_add_left (Nat.zero_le _) _

/-- Taking an input leaves two steps less to do (accept, complete). -/
theorem State.work_tail {s : State} {x : Input} (h : s.inputs = x :: s.inputs.tail) (n : Nat) :
    ({ s with inputs := s.inputs.tail, choices := n } : State).work + 2 = s.work := by
  have hlen : s.inputs.length = s.inputs.tail.length + 1 := congrArg List.length h
  have hwork : ({ s with inputs := s.inputs.tail, choices := n } : State).work =
      2 * s.inputs.tail.length + s.inFlight.length := rfl
  rw [hwork, State.work, hlen]
  omega

theorem State.work_accept {s : State} {r : Nat} (hidle : (s.port r).txn = .idle) (q : Request) :
    (s.accept r q).work = s.work + 1 := by
  have hlen := length_inFlight_setPort s r { txn := .busy q, rsp := none, received := (s.port r).received }
  rw [hidle, busyCount, busyCount] at hlen
  rw [State.work, State.work, State.accept, State.setPort_inputs]
  omega

theorem State.work_respond {s : State} {q : Request} (hbusy : (s.port s.serving).txn = .busy q) (a : Response) :
    (s.respond a).work + 1 = s.work := by
  have hlen := length_inFlight_setPort s s.serving
    { txn := .idle, rsp := some a, received := (s.port s.serving).received ++ [a] }
  rw [hbusy, busyCount, busyCount] at hlen
  rw [State.work, State.work, State.respond, State.setPort_inputs]
  omega

/-- A machine that is not at rest and refuses nothing has a possible event: the next input is taken, or waits for a command
in flight, which can be completed. -/
theorem State.candidates_ne_nil {s : State} (hinv : Inv s) (hadm : s.AllAdmitted) (hquiet : ¬ s.Quiet) :
    s.candidates ≠ [] := by
  have hcomplete : s.inFlight ≠ [] → s.candidates ≠ [] := by
    intro hflight
    obtain ⟨e, he⟩ := List.exists_mem_of_ne_nil _ hflight
    have hmem : Action.complete e.1 ∈ s.completions := List.mem_filterMap.2 ⟨e, he, if_pos (hadm.1 e he)⟩
    exact List.ne_nil_of_mem (List.mem_append_right _ hmem)
  match hinputs : s.inputs with
  | [] => exact hcomplete fun hflight => hquiet ⟨hinputs, hflight⟩
  | .reset :: rest => simp [State.candidates, State.inputActions, hinputs]
  | .request r q :: rest =>
    cases htxn : (s.port r).txn with
    | idle => simp [State.candidates, State.inputActions, State.isIdle, hinputs, htxn]
    | busy q' => exact hcomplete (List.ne_nil_of_mem ((mem_inFlight hinv.rising).2 htxn))

/-- Performing a possible event leaves less to do. -/
theorem perform_work_lt {s : State} (hinv : Inv s) {a : Action} (ha : a ∈ s.candidates) (n : Nat) :
    ∃ t, perform a { s with choices := n } = .next t ∧ t.work < s.work := by
  rcases List.mem_append.1 ha with hinput | hcompletion
  · obtain ⟨rfl, hinputs⟩ | ⟨r, q, rfl, hidle, hinputs⟩ := State.mem_inputActions hinput
    · have htail := State.work_tail hinputs n
      have hreset := State.work_applyReset_le { s with inputs := s.inputs.tail, choices := n }
      exact ⟨_, rfl, Nat.lt_of_le_of_lt hreset (by omega)⟩
    · have htail := State.work_tail hinputs n
      have haccept := State.work_accept (s := { s with inputs := s.inputs.tail, choices := n }) hidle q
      exact ⟨_, rfl, Nat.lt_of_le_of_lt haccept.le (by omega)⟩
  · obtain ⟨r, q, rfl, hflight, hadmits⟩ := State.mem_completions hcompletion
    obtain ⟨i, hd, hruns⟩ := State.admits_iff.1 hadmits
    have hbusy := (mem_inFlight hinv.rising).1 hflight
    refine ⟨_, serve_of_runs (s := { s with choices := n }) hbusy hd ⟨hruns.built, hruns.within, hruns.chars⟩, ?_⟩
    exact Nat.lt_of_succ_le (State.work_respond (s := { s with serving := r, choices := n }) hbusy _).le

/-- A step of a machine that is not at rest and refuses nothing leaves less to do. -/
theorem step_work_lt {s : State} (hinv : Inv s) (hb : s.built = true) (hadm : s.AllAdmitted) (hquiet : ¬ s.Quiet) :
    ∃ t, step s = .next t ∧ t.work < s.work := by
  obtain ⟨a, ha, n, hstep⟩ := step_eq_perform hb (State.candidates_ne_nil hinv hadm hquiet)
  rw [hstep]
  exact perform_work_lt hinv ha n

/-! ### What every step of a run keeps -/

/-- The block takes its inputs in the order of the list (log 6). -/
theorem step_inputs_suffix {s t : State} (h : step s = .next t) : t.inputs <:+ s.inputs := by
  obtain ⟨_, _, rfl⟩ | ⟨n, _, rfl⟩ | ⟨n, r, q, _, _, rfl⟩ | ⟨n, r, rfl, _⟩ | ⟨n, r, q, i, _, _, _, rfl⟩ := step_eq_next h
  case inr.inl => exact List.tail_suffix s.inputs
  case inr.inr.inl => exact List.tail_suffix s.inputs
  all_goals exact List.suffix_rfl

theorem step_built {s t : State} (h : step s = .next t) : t.built = true := by
  obtain ⟨hrom, hconfig⟩ := stepKeepsRomAndConfiguration s t h
  rw [State.built_congr hrom hconfig, built_of_step h]

/-- A command in flight after a step was in flight or presented before it, so the model still refuses none. -/
theorem step_allAdmitted {s t : State} (hinv : Inv s) (hadm : s.AllAdmitted) (h : step s = .next t) : t.AllAdmitted := by
  obtain ⟨hrom, hconfig⟩ := stepKeepsRomAndConfiguration s t h
  obtain ⟨hflight, hinputs⟩ := hadm
  refine ⟨?_, fun r q hq => ?_⟩
  · rintro ⟨r, q⟩ hq
    have hbusy := (mem_inFlight (stepKeepsInvariant s t hinv h).rising).1 hq
    rw [State.admits_congr hrom hconfig]
    obtain hport | ⟨q', _, hhead, hport⟩ | ⟨q', i, _, _, _, hport⟩ | ⟨_, hport⟩ :=
      requesterMovesBetweenIdleAndBusy s t r hinv h <;> rw [hport] at hbusy
    · exact hflight (r, q) ((mem_inFlight hinv.rising).2 hbusy)
    · obtain rfl := Txn.busy.inj hbusy
      exact hinputs r q' (hhead ▸ List.mem_cons_self)
    · cases hbusy
    · cases hbusy
  · rw [State.admits_congr hrom hconfig]
    exact hinputs r q ((step_inputs_suffix h).mem hq)

theorem run_of_refused {M : Host.Core} {s : M.State} {r : M.Refusal} (h : M.step s = .refused r) (k : Nat) :
    M.run (k + 1) s = .refused r := by
  simp only [Host.Core.run, h]

/-- What every step keeps holds at the end of a run. -/
theorem runSteps_induction {P : State → Prop} (hstep : ∀ s t, P s → step s = .next t → P t) {k : Nat} {s t : State}
    (hs : P s) (h : runSteps k s = .next t) : P t := by
  induction k generalizing s with
  | zero => cases h; exact hs
  | succ k ih =>
    cases hu : step s with
    | next u => exact ih (hstep s u hs hu) (runSteps_of_next hu k ▸ h)
    | fault r => cases r
    | refused r => cases (run_of_refused (M := Sys2Proof.core) hu k).symm.trans h

/-! ### Answers -/

/-- From `s` to `t` requester `r` got one response for each command that is no longer outstanding, in order, each the one
the command gets alone. -/
def AnsweredAlone (s t : State) (r : Nat) : Prop :=
  ∃ commands answers, s.outstanding r = commands ++ t.outstanding r ∧
    (t.port r).received = (s.port r).received ++ answers ∧
    List.Forall₂ (fun q a => ∃ i, decode q = .ok i ∧ a = responseAlone s.rom s.config.stripMode i) commands answers

theorem AnsweredAlone.of_eq {s t : State} {r : Nat} (ho : t.outstanding r = s.outstanding r)
    (hr : (t.port r).received = (s.port r).received) : AnsweredAlone s t r :=
  ⟨[], [], ho.symm, by rw [hr, List.append_nil], .nil⟩

theorem AnsweredAlone.of_port_eq {s t : State} {r : Nat} (hport : t.port r = s.port r)
    (hinputs : presentedBy r t.inputs = presentedBy r s.inputs) : AnsweredAlone s t r :=
  .of_eq (by rw [State.outstanding, State.outstanding, hport, hinputs]) (by rw [hport])

theorem AnsweredAlone.trans {s t u : State} {r : Nat} (hst : AnsweredAlone s t r) (htu : AnsweredAlone t u r)
    (hrom : t.rom = s.rom) (hconfig : t.config = s.config) : AnsweredAlone s u r := by
  obtain ⟨c, a, ho, hr, hall⟩ := hst
  obtain ⟨c', a', ho', hr', hall'⟩ := htu
  rw [hrom, hconfig] at hall'
  exact ⟨c ++ c', a ++ a', by rw [ho, ho', List.append_assoc], by rw [hr', hr, List.append_assoc],
    List.rel_append hall hall'⟩

theorem presentedBy_cons_request (r k : Nat) (q : Request) (rest : List Input) :
    presentedBy r (.request k q :: rest) = if k = r then q :: presentedBy r rest else presentedBy r rest := rfl

/-- An accepted request was presented before and is in flight now: it stays outstanding. -/
theorem answeredAlone_accept {s u : State} {k : Nat} {q : Request} (hidle : (s.port k).txn = .idle)
    (hinputs : s.inputs = .request k q :: u.inputs) (hports : u.ports = s.ports) (r : Nat) :
    AnsweredAlone s (u.accept k q) r := by
  have hport := State.port_congr hports
  by_cases hr : r = k
  · subst hr
    refine .of_eq ?_ ?_
    · rw [State.outstanding, State.outstanding, State.port_accept_self, hidle, hinputs, presentedBy_cons_request,
        if_pos rfl]
      rfl
    · rw [State.port_accept_self, hport]
  · refine .of_port_eq ((State.port_accept_of_ne u q hr).trans (hport r)) ?_
    rw [State.accept_inputs, hinputs, presentedBy_cons_request, if_neg (Ne.symm hr)]

/-- A response answers the command in flight. -/
theorem answeredAlone_respond {s u : State} {q : Request} {i : Instr} (hbusy : (s.port u.serving).txn = .busy q)
    (hd : decode q = .ok i) (hinputs : u.inputs = s.inputs) (hports : u.ports = s.ports) (r : Nat) :
    AnsweredAlone s (u.respond (responseAlone s.rom s.config.stripMode i)) r := by
  have hport := State.port_congr hports
  by_cases hr : r = u.serving
  · subst hr
    refine ⟨[q], [_], ?_, ?_, .cons ⟨i, hd, rfl⟩ .nil⟩
    · rw [State.outstanding, State.outstanding, State.port_respond_self, State.respond_inputs, hinputs, hbusy]
      rfl
    · rw [State.port_respond_self, hport]
  · refine .of_port_eq ((State.port_respond_of_ne u _ hr).trans (hport r)) ?_
    rw [State.respond_inputs, hinputs]

/-- Without a reset among the inputs a step answers what it takes from a requester. -/
theorem step_answeredAlone {s t : State} (h : step s = .next t) (hreset : Input.reset ∉ s.inputs) (r : Nat) :
    AnsweredAlone s t r := by
  obtain ⟨_, _, rfl⟩ | ⟨n, hinputs, rfl⟩ | ⟨n, k, q, hidle, hinputs, rfl⟩ | ⟨n, k, rfl, _⟩ |
    ⟨n, k, q, i, hbusy, hd, _, rfl⟩ := step_eq_next h
  · exact .of_eq rfl rfl
  · exact absurd (hinputs ▸ List.mem_cons_self) hreset
  · exact answeredAlone_accept (u := { s with inputs := s.inputs.tail, choices := n }) hidle hinputs rfl r
  · exact .of_eq rfl rfl
  · exact answeredAlone_respond (u := { s with serving := k, choices := n }) hbusy hd rfl rfl r

/-- A requester of a machine at rest has no command without a response. -/
theorem State.outstanding_of_quiet {s : State} (hinv : Inv s) (h : s.Quiet) (r : Nat) : s.outstanding r = [] := by
  obtain ⟨hinputs, hflight⟩ := h
  have hidle : (s.port r).txn = .idle := by
    cases htxn : (s.port r).txn with
    | idle => rfl
    | busy q =>
      have := (mem_inFlight hinv.rising).2 htxn
      rw [hflight] at this
      cases this
  rw [State.outstanding, hidle, hinputs]
  rfl

/-- What a run keeps of the state `s` it starts from, when no reset is presented. -/
structure RunsFrom (s u : State) : Prop where
  inv : Inv u
  no_reset : Input.reset ∉ u.inputs
  rom : u.rom = s.rom
  config : u.config = s.config
  answered : ∀ r, AnsweredAlone s u r

theorem RunsFrom.next {s u v : State} (h : RunsFrom s u) (hv : step u = .next v) : RunsFrom s v := by
  obtain ⟨hrom, hconfig⟩ := stepKeepsRomAndConfiguration u v hv
  exact ⟨stepKeepsInvariant u v h.inv hv, fun hmem => h.no_reset ((step_inputs_suffix hv).mem hmem), hrom.trans h.rom,
    hconfig.trans h.config, fun r => (h.answered r).trans (step_answeredAlone hv h.no_reset r) h.rom h.config⟩

/-! ### The obligations -/

/-- Settles O48: by induction on the number of steps; each step of a machine that is not at rest leaves less to do. -/
theorem machineComesToRest : Obligations.MachineComesToRest := by
  intro s k hinv hb hadm hwork
  induction k generalizing s with
  | zero =>
    refine ⟨s, rfl, ?_⟩
    by_contra hquiet
    obtain ⟨t, _, hlt⟩ := step_work_lt hinv hb hadm hquiet
    omega
  | succ k ih =>
    by_cases hquiet : s.Quiet
    · rw [runSteps_of_next (step_of_quiet hb hquiet)]
      refine ih s hinv hb hadm ?_
      rw [State.work, hquiet.1, hquiet.2]
      exact Nat.zero_le k
    · obtain ⟨t, hstep, hlt⟩ := step_work_lt hinv hb hadm hquiet
      rw [runSteps_of_next hstep]
      exact ih t (stepKeepsInvariant s t hinv hstep) (step_built hstep) (step_allAdmitted hinv hadm hstep) (by omega)

/-- Settles O49: the run comes to rest, where nothing is outstanding, and every step of it answers what it completes. -/
theorem everyCommandIsAnsweredAsIfAlone : Obligations.EveryCommandIsAnsweredAsIfAlone := by
  intro s k hinv hb hadm hreset hwork
  obtain ⟨t, hrun, hquiet⟩ := machineComesToRest s k hinv hb hadm hwork
  have hstart : RunsFrom s s := ⟨hinv, hreset, rfl, rfl, fun _ => .of_eq rfl rfl⟩
  have hend : RunsFrom s t := runSteps_induction (P := RunsFrom s) (fun _ _ => RunsFrom.next) hstart hrun
  refine ⟨t, hrun, hquiet, hend.rom, hend.config, fun r => ?_⟩
  obtain ⟨commands, answers, ho, hr, hall⟩ := hend.answered r
  rw [State.outstanding_of_quiet hend.inv hquiet, List.append_nil] at ho
  exact ⟨answers, hr, ho ▸ hall⟩

end Sys2Proof.Machine
end
